-- ==== Sys2Proof/Word.lean ====
section
/-! DEFINITION. The word of the machine: one signed 64-bit value. -/

namespace Sys2Proof

/-- A memory cell, `PC`, `RB`, an operand or an input/output value: 64 bits, read as a signed
two's-complement integer by `BitVec.toInt` (00_scope.md R5 `WORD`, R6). -/
abbrev Word := BitVec 64

end Sys2Proof
end

