-- ==== Sys2Proof/Config.lean ====
section
/-! DEFINITION. The implementation parameters of 00_scope.md R5, fixed at construction. -/

namespace Sys2Proof

/-- `OVERFLOW_POLICY` (R5, R120): what an add, multiply or relative-base adjust does when its exact
result is outside the signed 64-bit range. -/
inductive OverflowPolicy where
  | fault
  | wrap
  deriving DecidableEq, Repr

/-- `EXCESS_DIGIT_POLICY` (R5, R78): what the decoder does with nonzero decimal digits above the last
mode digit of the opcode's arity. -/
inductive ExcessPolicy where
  | fault
  | ignore
  deriving DecidableEq, Repr

/-- The parameters of one Machine (R5). -/
structure Config where
  /-- `MEM_SIZE`: the number of memory cells. -/
  memSize : Nat
  /-- `OVERFLOW_POLICY`. -/
  overflow : OverflowPolicy
  /-- `EXCESS_DIGIT_POLICY`. -/
  excess : ExcessPolicy
  deriving DecidableEq, Repr

/-- The defaults of R5, which the spec's rules and test vectors use. -/
def Config.default : Config := { memSize := 8192, overflow := .fault, excess := .fault }

/-- A capacity that a 64-bit `PC` can run past without overflow: R22 says a sequential advance cannot
overflow 64 bits, which needs `MEM_SIZE <= 2^63 - 1`. DEDUCED (log 4). -/
def Config.wf (c : Config) : Bool := decide (c.memSize ≤ 9223372036854775807)

end Sys2Proof
end

