-- ==== Sys2Proof/Syntax.lean ====
section
/-! DEFINITION. The instructions as syntax: one constructor of `Instr` per row of
spec/opcode_table.json, with the operands that 30_encoding.md R70 gives it. -/

namespace Sys2Proof

/-- The addressing modes (30_encoding.md R74). -/
inductive Mode where
  | position
  | immediate
  | relative
  deriving DecidableEq, Repr

/-- One argument of an instruction: its mode digit, read from the instruction cell (R71), and its
argument cell `raw(i)`, a full signed 64-bit value (R70, R82). -/
structure Operand where
  mode : Mode
  raw : Word
  deriving DecidableEq, Repr

/-- The ten opcode classes (R72). -/
inductive Opcode where
  | add
  | mul
  | inp
  | out
  | jt
  | jf
  | lt
  | eq
  | arb
  | halt
  deriving DecidableEq, Repr

/-- An instruction with its operands, argument 1 first (R72). -/
inductive Instr where
  /-- `ADD a, b, c` (R121). -/
  | add (a b c : Operand)
  /-- `MUL a, b, c` (R122). -/
  | mul (a b c : Operand)
  /-- `IN c` (R141). -/
  | inp (c : Operand)
  /-- `OUT a` (R142). -/
  | out (a : Operand)
  /-- `JT a, b` (R160). -/
  | jt (a b : Operand)
  /-- `JF a, b` (R161). -/
  | jf (a b : Operand)
  /-- `LT a, b, c` (R180). -/
  | lt (a b c : Operand)
  /-- `EQ a, b, c` (R181). -/
  | eq (a b c : Operand)
  /-- `ARB a` (R200). -/
  | arb (a : Operand)
  /-- `HALT` (R201). -/
  | halt
  deriving DecidableEq, Repr

/-- What `Decode(cell)` returns: `(op, n, [m1..mn])`, where `n` is the arity of `op` and so the length
of the list (R75). -/
structure DecodedCell where
  op : Opcode
  modes : List Mode
  deriving DecidableEq, Repr

/-- The three ways an instruction cell is illegal (R84), with what each records (R260). -/
inductive DecodeError where
  /-- R76: a negative cell, or `cell mod 100` none of the ten opcode values. -/
  | invalidOpcode (cell : Word)
  /-- R77, R78: a mode digit of 3 to 9, or a nonzero excess digit under the `fault` policy. -/
  | invalidAddressingMode (cell : Word) (slot digit : Nat)
  /-- R79: an Immediate write target. -/
  | illegalWriteMode (cell : Word) (slot : Nat)
  deriving DecidableEq, Repr

/-- Why a list of cells does not begin with an instruction. -/
inductive CellsError where
  /-- The first cell is illegal (R84). -/
  | illegal (e : DecodeError)
  /-- The list ends before the instruction does: cell number `k` is missing (0 is the instruction
  cell, `i` the cell of argument `i`; R70). -/
  | missing (k : Nat)
  deriving DecidableEq, Repr

end Sys2Proof
end

