-- ==== Sys2Proof/WellFormed.lean ====
section
/-! DEFINITION. Which instructions an encoding can stand for: every write target is Position or
Relative (30_encoding.md R79). -/

namespace Sys2Proof

/-- The check of one write-target argument: its mode is not Immediate (R79). -/
def Operand.canBeTarget (o : Operand) : Bool := o.mode != .immediate

/-- Argument 3 of `ADD`, `MUL`, `LT` and `EQ` and argument 1 of `IN` are write targets (R72, R79); every
combination of modes is legal on read operands (R84). -/
def Instr.wf : Instr → Bool
  | .add _ _ c => c.canBeTarget
  | .mul _ _ c => c.canBeTarget
  | .inp c => c.canBeTarget
  | .out _ => true
  | .jt _ _ => true
  | .jf _ _ => true
  | .lt _ _ c => c.canBeTarget
  | .eq _ _ c => c.canBeTarget
  | .arb _ => true
  | .halt => true

end Sys2Proof
end

