-- ==== Sys2Proof/Decode.lean ====
section
/-! DEFINITION. The decoder of 30_encoding.md R75, total on every cell, and the encoder of R85. -/

namespace Sys2Proof

/-! ## The opcode map (R72) and the mode digits (R74) -/

/-- The opcode number of a class (R72). The numbers 5 and 7 are the spec's own inference (R73; log 14). -/
def Opcode.number : Opcode → Nat
  | .add => 1
  | .mul => 2
  | .inp => 3
  | .out => 4
  | .jt => 5
  | .jf => 6
  | .lt => 7
  | .eq => 8
  | .arb => 9
  | .halt => 99

/-- The class of a two-digit opcode value, if it is one of the ten (R72, R76). -/
def Opcode.ofNumber : Nat → Option Opcode
  | 1 => some .add
  | 2 => some .mul
  | 3 => some .inp
  | 4 => some .out
  | 5 => some .jt
  | 6 => some .jf
  | 7 => some .lt
  | 8 => some .eq
  | 9 => some .arb
  | 99 => some .halt
  | _ => none

/-- The arity `n` of a class (R72). -/
def Opcode.arity : Opcode → Nat
  | .add => 3
  | .mul => 3
  | .inp => 1
  | .out => 1
  | .jt => 2
  | .jf => 2
  | .lt => 3
  | .eq => 3
  | .arb => 1
  | .halt => 0

/-- `write_slots(op)`: the arguments that are write targets (R72, R75). -/
def Opcode.writeSlots : Opcode → List Nat
  | .add => [3]
  | .mul => [3]
  | .inp => [1]
  | .out => []
  | .jt => []
  | .jf => []
  | .lt => [3]
  | .eq => [3]
  | .arb => []
  | .halt => []

/-- The digit of a mode (R74). -/
def Mode.digit : Mode → Nat
  | .position => 0
  | .immediate => 1
  | .relative => 2

/-- The mode of a digit; 3 to 9 are no mode (R74, R77). -/
def Mode.ofDigit : Nat → Option Mode
  | 0 => some .position
  | 1 => some .immediate
  | 2 => some .relative
  | _ => none

/-! ## The decoder (R75) -/

/-- `digit(v, k)`: the `k`-th decimal digit of `v`, counted from 0 at the units (00_scope.md R7). -/
def digit (v k : Nat) : Nat := v / 10 ^ k % 10

/-- The modes of arguments `i` to `i + n - 1`, in argument order; the first digit that is no mode
raises (R75, R77). -/
def decodeModes (cell : Word) (v : Nat) : Nat → Nat → Except DecodeError (List Mode)
  | _, 0 => .ok []
  | i, n + 1 =>
    match Mode.ofDigit (digit v (1 + i)) with
    | none => .error (.invalidAddressingMode cell i (digit v (1 + i)))
    | some m => do
      let ms ← decodeModes cell v (i + 1) n
      .ok (m :: ms)

/-- The least slot from `j` on whose digit, at position `1 + j`, is not 0; `fuel` slots are tried
before the last one is taken (R75, R78). -/
def firstExcessSlot (v : Nat) : (fuel j : Nat) → Nat
  | 0, j => j
  | fuel + 1, j => if digit v (1 + j) ≠ 0 then j else firstExcessSlot v fuel (j + 1)

/-- The slot the excess-digit fault reports for arity `n`: the least `k > n` whose digit is not 0. A cell
is below `2^63 < 10^19`, so no slot is above 17 (R78, 10_state.md R31). -/
def excessSlot (v n : Nat) : Nat := firstExcessSlot v (16 - n) (n + 1)

/-- The excess-digit check (R75, R78). -/
def checkExcess (p : ExcessPolicy) (cell : Word) (v n : Nat) : Except DecodeError Unit :=
  match p with
  | .ignore => .ok ()
  | .fault =>
    if v / 10 ^ (2 + n) = 0 then .ok ()
    else .error (.invalidAddressingMode cell (excessSlot v n) (digit v (1 + excessSlot v n)))

/-- The write-mode check, in slot order (R75, R79). -/
def checkWriteModes (cell : Word) (modes : List Mode) : List Nat → Except DecodeError Unit
  | [] => .ok ()
  | i :: rest =>
    if modes[i - 1]? = some .immediate then .error (.illegalWriteMode cell i)
    else checkWriteModes cell modes rest

/-- `Decode(cell)`: a pure function of the cell and the excess-digit policy; the first failing check
raises (R75, R88). -/
def decodeCell (p : ExcessPolicy) (cell : Word) : Except DecodeError DecodedCell :=
  if cell.toInt < 0 then .error (.invalidOpcode cell)
  else
    match Opcode.ofNumber (cell.toInt.toNat % 100) with
    | none => .error (.invalidOpcode cell)
    | some op => do
      let modes ← decodeModes cell cell.toInt.toNat 1 op.arity
      checkExcess p cell cell.toInt.toNat op.arity
      checkWriteModes cell modes op.writeSlots
      .ok { op := op, modes := modes }

/-- Argument `i` of a decoded cell with its argument cells `raw(1..n)` (R70, R80). -/
def DecodedCell.operand (d : DecodedCell) (raw : List Word) (i : Nat) : Operand :=
  { mode := d.modes.getD (i - 1) .position, raw := raw.getD (i - 1) 0 }

/-- The instruction of a decoded cell and its argument cells (R70, R72). -/
def DecodedCell.toInstr (d : DecodedCell) (raw : List Word) : Instr :=
  match d.op with
  | .add => .add (d.operand raw 1) (d.operand raw 2) (d.operand raw 3)
  | .mul => .mul (d.operand raw 1) (d.operand raw 2) (d.operand raw 3)
  | .inp => .inp (d.operand raw 1)
  | .out => .out (d.operand raw 1)
  | .jt => .jt (d.operand raw 1) (d.operand raw 2)
  | .jf => .jf (d.operand raw 1) (d.operand raw 2)
  | .lt => .lt (d.operand raw 1) (d.operand raw 2) (d.operand raw 3)
  | .eq => .eq (d.operand raw 1) (d.operand raw 2) (d.operand raw 3)
  | .arb => .arb (d.operand raw 1)
  | .halt => .halt

/-- The instruction at the front of a list of cells, with the cells after it (R70, R75, R83). -/
def decode (p : ExcessPolicy) : List Word → Except CellsError (Instr × List Word)
  | [] => .error (.missing 0)
  | cell :: rest =>
    match decodeCell p cell with
    | .error e => .error (.illegal e)
    | .ok d =>
      if rest.length < d.op.arity then .error (.missing (rest.length + 1))
      else .ok (d.toInstr (rest.take d.op.arity), rest.drop d.op.arity)

/-! ## The encoder (R70, R85) -/

/-- The class of an instruction (R72). -/
def Instr.opcode : Instr → Opcode
  | .add _ _ _ => .add
  | .mul _ _ _ => .mul
  | .inp _ => .inp
  | .out _ => .out
  | .jt _ _ => .jt
  | .jf _ _ => .jf
  | .lt _ _ _ => .lt
  | .eq _ _ _ => .eq
  | .arb _ => .arb
  | .halt => .halt

/-- The arguments of an instruction in order (R70). -/
def Instr.operands : Instr → List Operand
  | .add a b c => [a, b, c]
  | .mul a b c => [a, b, c]
  | .inp c => [c]
  | .out a => [a]
  | .jt a b => [a, b]
  | .jf a b => [a, b]
  | .lt a b c => [a, b, c]
  | .eq a b c => [a, b, c]
  | .arb a => [a]
  | .halt => []

/-- The mode digit of argument `i`; a mode an opcode does not have is 0 (R85). -/
def Instr.modeDigit (i : Instr) (k : Nat) : Nat :=
  match i.operands[k - 1]? with
  | some o => o.mode.digit
  | none => 0

/-- The number in the instruction cell (R85). -/
def Instr.cellNumber (i : Instr) : Nat :=
  i.opcode.number + 100 * i.modeDigit 1 + 1000 * i.modeDigit 2 + 10000 * i.modeDigit 3

/-- The cells of an instruction: the instruction cell, then the argument cells (R70, R85). -/
def encode (i : Instr) : List Word :=
  BitVec.ofNat 64 i.cellNumber :: i.operands.map Operand.raw

/-! ## The opcode table's numbering -/

/-- The cells of an instruction whose bits are `w`, as spec/opcode_table.json numbers them: bit 0 is the
least significant bit of the first cell, and the bits of cell `k` are `64 k` to `64 k + 63`. Every bit
from `nbits` on is 0. Four cells are the longest instruction (R83). -/
def tableCells (nbits w : Nat) : List Word :=
  let bits := w % 2 ^ nbits
  [BitVec.ofNat 64 bits, BitVec.ofNat 64 (bits / 2 ^ 64), BitVec.ofNat 64 (bits / 2 ^ 128),
    BitVec.ofNat 64 (bits / 2 ^ 192)]

/-- The instruction the decoder reads from those cells under the default excess-digit policy (R5). -/
def decodeTableWord (nbits w : Nat) : Option Instr :=
  match decode Config.default.excess (tableCells nbits w) with
  | .ok r => some r.1
  | .error _ => none

end Sys2Proof
end

