-- ==== Sys2Proof/Machine/State.lean ====
section
/-! DEFINITION. The state of one Machine (10_state.md), the reasons a command or a step can stop, and the
state after reset (10_state.md R36, 70_reset_and_hazards.md R290). -/

namespace Sys2Proof.Machine

/-! ## The fault record (10_state.md R31, 60_exceptions.md R260) -/

/-- `FAULT.kind`: the error taxonomy of R260. -/
inductive FaultKind where
  | none
  | invalidOpcode
  | invalidAddressingMode
  | inputExhausted
  | outOfBoundsAddress
  | illegalWriteMode
  | arithmeticOverflow
  deriving DecidableEq, Repr

/-- `FAULT`: the fault record, with the fields and widths of R31. -/
structure FaultRecord where
  /-- The fault kind. -/
  kind : FaultKind
  /-- `PC` of the faulting instruction. -/
  pc : Word
  /-- The out-of-bounds address, an unbounded integer. -/
  addr : Int
  /-- The instruction cell, for decode faults. -/
  cell : Word
  /-- The argument number for mode faults, 5 bits, legal 0 to 17. -/
  slot : BitVec 5
  /-- The offending mode digit, 4 bits, legal 0 to 9. -/
  digit : BitVec 4
  /-- The exact out-of-range result, an unbounded integer. -/
  value : Int
  deriving DecidableEq, Repr

/-- The record with no fault in it: its reset value (R36). -/
def FaultRecord.empty : FaultRecord :=
  { kind := .none, pc := 0, addr := 0, cell := 0, slot := 0, digit := 0, value := 0 }

/-- `E(info)`: an error an instruction can raise, with what it records (00_scope.md R11, 60_exceptions.md
R260). -/
inductive Trap where
  /-- `InvalidOpcode`, `InvalidAddressingMode` or `IllegalWriteMode`: the decode of the cell failed. -/
  | decode (e : DecodeError)
  /-- `InputExhausted`: `IN` in batch mode with `IN_Q` empty. -/
  | inputExhausted
  /-- `OutOfBoundsAddress`: an access outside `[0, MEM_SIZE)`. -/
  | outOfBoundsAddress (addr : Int)
  /-- `ArithmeticOverflow`: an exact result outside the signed 64-bit range, under the `fault` policy. -/
  | arithmeticOverflow (value : Int)
  deriving DecidableEq, Repr

/-! ## The run command in progress (46_host_interface.md R220 to R227) -/

/-- The I/O mode of a step (00_scope.md R13). -/
inductive IOMode where
  | batch
  | step
  deriving DecidableEq, Repr

/-- A run command that is executing. `consumeSingleInput` carries its latch `consumed` (10_state.md R34,
R227). -/
inductive RunCommand where
  | eval
  | pipe
  | consumeSingleInput (consumed : Bool)
  deriving DecidableEq, Repr

/-- The response of a run command (R220). -/
inductive Response where
  /-- `ok` of `eval` and `consumeSingleInput`. -/
  | ok
  /-- `Some(v)` of `pipe`. -/
  | output (v : Word)
  /-- `None` of `pipe`: halted. -/
  | noOutput
  /-- The fault, of any run command. -/
  | fault (record : FaultRecord)
  deriving DecidableEq, Repr

/-- What the command interface is doing. The MODEL's own: the spec makes the I/O mode and the latch an
argument and a local of the command (10_state.md R34, R35). DESIGN CHOICE (log 5). -/
inductive Port where
  /-- No run command has been issued since `new` or `reset`. -/
  | idle
  /-- A run command is executing. -/
  | running (c : RunCommand)
  /-- The last run command ended with this response. -/
  | returned (r : Response)
  deriving DecidableEq, Repr

/-! ## Memory -/

/-- `M` (10_state.md R26) as a list of (address, cell) pairs; an address that is not listed reads 0
(20_memory.md R51). A cell is one 64-bit value and has no bytes (R53, R54; log 1). -/
abbrev Memory := List (Nat × Word)

/-! ## The state -/

/-- The state of one Machine: everything 10_state.md gives it, and the model's own `cfg` and `port`
(log 2, log 5). `STATUS` is derived (R32). -/
structure State where
  /-- The parameters of 00_scope.md R5. The MODEL's own field (log 2). -/
  cfg : Config
  /-- `M` (R26). -/
  mem : Memory
  /-- `PC` (R21). -/
  pc : Word
  /-- `RB` (R25). -/
  rb : Word
  /-- `HALT` (R23). -/
  halt : Bool
  /-- `IN_Q` (R27). -/
  inQ : List Word
  /-- `OUT_SEQ` (R28). -/
  outSeq : List Word
  /-- `IN_SLOT` (R29). -/
  inSlot : Word
  /-- `OUT_SLOT` (R30). -/
  outSlot : Word
  /-- `FAULT` (R31). -/
  fault : FaultRecord
  /-- The run command in progress. The MODEL's own field (log 5). -/
  port : Port
  deriving DecidableEq, Repr

/-- `new()`: a Machine whose every piece of state has its reset value, for the given parameters
(10_state.md R36, 46_host_interface.md R228). -/
def State.new (c : Config) : State :=
  { cfg := c, mem := [], pc := 0, rb := 0, halt := false, inQ := [], outSeq := [], inSlot := 0,
    outSlot := 0, fault := .empty, port := .idle }

/-- The machine right after reset, with the default parameters (R5, R36; log 3). -/
def State.reset : State := State.new Config.default

/-! ## The outcomes that are not a next state -/

/-- The typed failures that the host interface answers WITHOUT recording them in `FAULT`. No instruction
and no step raises one: an error of R260 is recorded in `FAULT`, and the machine goes to a next state
(60_exceptions.md R261; log 8). -/
inductive Fault where
  /-- `OutOfBoundsAddress` of `loadCode` with a program longer than memory (40_loader.md R108) and of a
  read port asked for an address that does not exist (46_host_interface.md R231). Raised by those host
  commands only; nothing is changed. Safe. -/
  | outOfBoundsAddress (addr : Int)
  /-- `ParseError(index)` of `parse` (40_loader.md R104, 60_exceptions.md R276). Raised by `parse` only,
  which has no machine. Safe. -/
  | parseError (index : Nat)
  deriving DecidableEq, Repr

/-- The requests the model does not carry out. No instruction of the machine is refused. -/
inductive Refusal where
  /-- An instruction with no meaning yet. Raised by no arm of `exec` (every instruction has its
  meaning). Safe. -/
  | notModelled (mnemonic : String)
  /-- A host command issued while a run command is executing, which R221 says cannot be. Raised by
  `State.issue` and `State.readPort` only. Safe (log 16). -/
  | busy
  /-- A command addressed to a Machine the host does not have. Raised by `System.onMachine` only. Safe
  (log 20). -/
  | noSuchMachine (k : Nat)
  deriving DecidableEq, Repr

end Sys2Proof.Machine
end

