-- ==== Sys2Proof/Machine/Ops.lean ====
section
/-! DEFINITION. The named operations over memory and registers: 64-bit results (00_scope.md R8,
41_arithmetic.md R120), bounds-checked access (R10, 20_memory.md R56), and raising an error
(60_exceptions.md R261). -/

namespace Sys2Proof.Machine

/-! ## Storing an exact integer in 64 bits (00_scope.md R8) -/

/-- `fits64(v)`: `v` is in the signed 64-bit range (R6, R8). -/
def fits64 (v : Int) : Bool :=
  decide (-9223372036854775808 ≤ v ∧ v ≤ 9223372036854775807)

/-- `wrap64(v)`: the word congruent to `v` modulo `2^64` (R8). -/
def wrap64 (v : Int) : Word := BitVec.ofInt 64 v

/-- `Arith(v)`: an exact result, stored or refused as the overflow policy says (R120). -/
def arith (c : Config) (v : Int) : Except Trap Word :=
  if fits64 v then .ok (wrap64 v)
  else
    match c.overflow with
    | .fault => .error (.arithmeticOverflow v)
    | .wrap => .ok (wrap64 v)

/-! ## Cells -/

/-- What a cell that nothing has written reads as: 0 (20_memory.md R51). -/
abbrev Memory.unlisted : Word := 0

/-- The value of cell `a`. -/
def Memory.read : Memory → Nat → Word
  | [], _ => Memory.unlisted
  | (b, v) :: rest, a => if a = b then v else Memory.read rest a

/-- The memory with `v` in cell `a`. The list stays in its one form: addresses rise, and no entry holds
what an unlisted cell reads as. -/
def Memory.write : Memory → Nat → Word → Memory
  | [], a, v => if v = Memory.unlisted then [] else [(a, v)]
  | (b, w) :: rest, a, v =>
    if a < b then
      if v = Memory.unlisted then (b, w) :: rest else (a, v) :: (b, w) :: rest
    else if a = b then
      if v = Memory.unlisted then rest else (a, v) :: rest
    else (b, w) :: Memory.write rest a v

/-- The memory with a sequence of cells written from address `a` up. -/
def Memory.writeFrom (m : Memory) (a : Nat) : List Word → Memory
  | [] => m
  | v :: vs => Memory.writeFrom (Memory.write m a v) (a + 1) vs

/-- The addresses of `m` rise from at least `lo` and stay below `hi`, and no entry reads as an unlisted
cell does. -/
def Memory.wfFrom (lo hi : Nat) : Memory → Bool
  | [] => true
  | (a, v) :: rest =>
    decide (lo ≤ a) && decide (a < hi) && decide (v ≠ Memory.unlisted) && Memory.wfFrom (a + 1) hi rest

/-- The one form of a memory of `size` cells. -/
def Memory.wf (m : Memory) (size : Nat) : Bool := Memory.wfFrom 0 size m

/-- An address is in bounds when `0 <= a < MEM_SIZE` (20_memory.md R56). Addresses are exact
integers and never wrap. -/
def inBounds (c : Config) (a : Int) : Bool := decide (0 ≤ a ∧ a < (c.memSize : Int))

/-- `MemRead(a, 1)` (00_scope.md R10). -/
def State.memRead (s : State) (a : Int) : Except Trap Word :=
  if inBounds s.cfg a then .ok (s.mem.read a.toNat) else .error (.outOfBoundsAddress a)

/-- `M[a] <- v` at an address that is in bounds. -/
def State.setCell (s : State) (a : Nat) (v : Word) : State := { s with mem := s.mem.write a v }

/-- `MemWrite(a, 1, v)` (00_scope.md R10). -/
def State.memWrite (s : State) (a : Int) (v : Word) : Except Trap State :=
  if inBounds s.cfg a then .ok (s.setCell a.toNat v) else .error (.outOfBoundsAddress a)

/-! ## Registers -/

/-- `PC <- PC + k`. After a fetch the sum never leaves 64 bits (10_state.md R22; log 11). -/
def State.advance (s : State) (k : Nat) : State := { s with pc := s.pc + BitVec.ofNat 64 k }

/-- `PC <- v` (43_jumps.md R162: the value unchanged and unchecked). -/
def State.jump (s : State) (v : Word) : State := { s with pc := v }

/-- `RB <- v` (10_state.md R25). -/
def State.setRb (s : State) (v : Word) : State := { s with rb := v }

/-- The I/O mode of a run command (46_host_interface.md R225 to R227). -/
def RunCommand.ioMode : RunCommand → IOMode
  | .eval => .batch
  | .pipe => .step
  | .consumeSingleInput _ => .step

/-- The I/O mode the running command passes to the step (00_scope.md R13). Outside a run no step executes
an instruction; `exec` is total, and the mode there is `batch`. DESIGN CHOICE (log 9). -/
def State.ioMode (s : State) : IOMode :=
  match s.port with
  | .running c => c.ioMode
  | .idle => .batch
  | .returned _ => .batch

/-- `ReadInputValue(mode)`: the value, and what `IN_Q` is once it is taken (42_io.md R140, R141). -/
def State.readInput (s : State) : Except Trap (Word × List Word) :=
  match s.ioMode with
  | .batch =>
    match s.inQ with
    | [] => .error .inputExhausted
    | v :: rest => .ok (v, rest)
  | .step => .ok (s.inSlot, s.inQ)

/-- `IN_Q <- q`. -/
def State.setInQ (s : State) (q : List Word) : State := { s with inQ := q }

/-- An output: appended to `OUT_SEQ` in batch mode, put in `OUT_SLOT` in step mode (42_io.md R142). -/
def State.emit (s : State) (v : Word) : State :=
  match s.ioMode with
  | .batch => { s with outSeq := s.outSeq ++ [v] }
  | .step => { s with outSlot := v }

/-! ## Raising an error (60_exceptions.md R260, R261, R266) -/

/-- The code of a fault kind, 3 bits (R260). -/
def FaultKind.code : FaultKind → BitVec 3
  | .none => 0
  | .invalidOpcode => 1
  | .invalidAddressingMode => 2
  | .inputExhausted => 3
  | .outOfBoundsAddress => 4
  | .illegalWriteMode => 5
  | .arithmeticOverflow => 6

/-- The kind of an error (R260). -/
def Trap.kind : Trap → FaultKind
  | .decode (.invalidOpcode _) => .invalidOpcode
  | .decode (.invalidAddressingMode _ _ _) => .invalidAddressingMode
  | .decode (.illegalWriteMode _ _) => .illegalWriteMode
  | .inputExhausted => .inputExhausted
  | .outOfBoundsAddress _ => .outOfBoundsAddress
  | .arithmeticOverflow _ => .arithmeticOverflow

/-- The record of an error raised with `PC` at `pc`: its kind, `pc`, the fields its information names, and
0 in every other field (R260, R261). -/
def Trap.record (t : Trap) (pc : Word) : FaultRecord :=
  match t with
  | .decode (.invalidOpcode cell) =>
    { FaultRecord.empty with kind := .invalidOpcode, pc := pc, cell := cell }
  | .decode (.invalidAddressingMode cell slot digit) =>
    { FaultRecord.empty with
      kind := .invalidAddressingMode, pc := pc, cell := cell,
      slot := BitVec.ofNat 5 slot, digit := BitVec.ofNat 4 digit }
  | .decode (.illegalWriteMode cell slot) =>
    { FaultRecord.empty with
      kind := .illegalWriteMode, pc := pc, cell := cell, slot := BitVec.ofNat 5 slot }
  | .inputExhausted => { FaultRecord.empty with kind := .inputExhausted, pc := pc }
  | .outOfBoundsAddress addr =>
    { FaultRecord.empty with kind := .outOfBoundsAddress, pc := pc, addr := addr }
  | .arithmeticOverflow value =>
    { FaultRecord.empty with kind := .arithmeticOverflow, pc := pc, value := value }

/-- Raising an error: `FAULT` is recorded and nothing else changes (R261 1 to 3, R266). There is no vector,
no saved state and no mode change (R267), and no return from an error: only `reset` clears `FAULT`
(R268). -/
def State.raise (s : State) (t : Trap) : State := { s with fault := t.record s.pc }

/-- The end of an instruction's phases: its committed state, or the error raised before its first
write (00_scope.md R11, 46_host_interface.md R222). -/
def State.settle (s : State) (r : Except Trap State) : Host.Outcome State Fault Refusal :=
  match r with
  | .ok s' => .next s'
  | .error t => .next (s.raise t)

end Sys2Proof.Machine
end

