-- ==== Sys2Proof/Machine/Operands.lean ====
section
/-! DEFINITION. Operand resolution: `Op(i)` and `EA(i)` of 30_encoding.md R80 and R81, and the shapes of
instruction that share it. -/

namespace Sys2Proof.Machine

/-- The address a Relative argument names, `RB + raw(i)`, an exact sum (R80, R81). -/
def State.relativeAddress (s : State) (o : Operand) : Int := s.rb.toInt + o.raw.toInt

/-- `Op(i)`: the value of a read operand (R80). -/
def State.readOperand (s : State) (o : Operand) : Except Trap Word :=
  match o.mode with
  | .position => s.memRead o.raw.toInt
  | .immediate => .ok o.raw
  | .relative => s.memRead (s.relativeAddress o)

/-- A write target's address once it is computed: checked before any write of the instruction (R81). -/
def State.checkAddress (s : State) (a : Int) : Except Trap Nat :=
  if inBounds s.cfg a then .ok a.toNat else .error (.outOfBoundsAddress a)

/-- `EA(i)`: the address of write operand `i` (R81). The Immediate arm is unreachable from `step`, since
`Decode` raises `IllegalWriteMode` (R79); for an ill-formed instruction it raises that same error.
DESIGN CHOICE (log 10). -/
def State.writeAddress (s : State) (i : Nat) (o : Operand) : Except Trap Nat :=
  match o.mode with
  | .position => s.checkAddress o.raw.toInt
  | .immediate => .error (.decode (.illegalWriteMode (s.mem.read s.pc.toNat) i))
  | .relative => s.checkAddress (s.relativeAddress o)

/-- The instructions that read two operands, compute, and write one cell: `ADD`, `MUL`, `LT`, `EQ`. Phase 4
resolves arguments 1, 2 and 3 in order, phase 5 computes, phase 6 commits (46_host_interface.md R222). -/
def State.binaryToCell (s : State) (a b c : Operand) (compute : Word → Word → Except Trap Word) :
    Except Trap State := do
  let x ← s.readOperand a
  let y ← s.readOperand b
  let t ← s.writeAddress 3 c
  let r ← compute x y
  .ok ((s.setCell t r).advance 4)

/-- The conditional jumps: both operands are read whether or not the jump is taken (43_jumps.md R160,
R161). -/
def State.jumpWhen (s : State) (a b : Operand) (taken : Word → Bool) : Except Trap State := do
  let x ← s.readOperand a
  let y ← s.readOperand b
  .ok (if taken x then s.jump y else s.advance 3)

end Sys2Proof.Machine
end

