-- ==== Sys2Proof/Machine/Arithmetic.lean ====
section
/-! DEFINITION. `ADD` and `MUL` (41_arithmetic.md R121, R122): phases 4 to 6 of the step. -/

namespace Sys2Proof.Machine

/-- `ADD a, b, c`: `M[c] <- Arith(x + y)` (R121). -/
def execAdd (a b c : Operand) (s : State) : Host.Outcome State Fault Refusal :=
  s.settle (s.binaryToCell a b c fun x y => arith s.cfg (x.toInt + y.toInt))

/-- `MUL a, b, c`: `M[c] <- Arith(x * y)` (R122). -/
def execMul (a b c : Operand) (s : State) : Host.Outcome State Fault Refusal :=
  s.settle (s.binaryToCell a b c fun x y => arith s.cfg (x.toInt * y.toInt))

end Sys2Proof.Machine
end

