-- ==== Sys2Proof/Machine/Flags.lean ====
section
/-! DEFINITION. The one flag, `HALT` (10_state.md R23), the derived `STATUS` (R32), and the 1 or 0 a
comparison writes: there are no condition codes (R24). -/

namespace Sys2Proof.Machine

/-- `HALT <- 1` (45_base_halt.md R201). -/
def State.setHalt (s : State) : State := { s with halt := true }

/-- The result of a comparison, 1 or 0 (44_compare.md R180, R181). -/
def boolWord (b : Bool) : Word := if b then 1 else 0

/-- A fault is recorded: `FAULT.kind /= NONE`. -/
def State.faulted (s : State) : Bool := s.fault.kind != .none

/-- The values of `STATUS` (R32). -/
inductive Status where
  | ready
  | halted
  | faulted
  deriving DecidableEq, Repr

/-- The 2-bit value of a status (R32). -/
def Status.code : Status → BitVec 2
  | .ready => 0
  | .halted => 1
  | .faulted => 2

/-- `STATUS`, derived from the other state (R32). `HALT = 1` and a recorded fault never hold together;
in a state that no run reaches where they do, this reads FAULTED. DESIGN CHOICE (log 19). -/
def State.status (s : State) : Status :=
  if s.faulted then .faulted else if s.halt then .halted else .ready

end Sys2Proof.Machine
end

