-- ==== Sys2Proof/Machine/BaseHalt.lean ====
section
/-! DEFINITION. `ARB` and `HALT` (45_base_halt.md R200, R201): phases 4 to 6 of the step. -/

namespace Sys2Proof.Machine

/-- `ARB a`: `RB <- Arith(RB + x)`; a Relative operand uses `RB` before the update (R200). -/
def execArb (a : Operand) (s : State) : Host.Outcome State Fault Refusal :=
  s.settle do
    let x ← s.readOperand a
    let r ← arith s.cfg (s.rb.toInt + x.toInt)
    .ok ((s.setRb r).advance 2)

/-- `HALT`: `HALT <- 1`, and `PC` keeps the address of the `HALT` cell (R201). -/
def execHalt (s : State) : Host.Outcome State Fault Refusal :=
  s.settle (.ok s.setHalt)

end Sys2Proof.Machine
end

