-- ==== Sys2Proof/Machine/Compare.lean ====
section
/-! DEFINITION. `LT` and `EQ` (44_compare.md R180, R181): phases 4 to 6 of the step. -/

namespace Sys2Proof.Machine

/-- `LT a, b, c`: the signed comparison `x < y` (R180). -/
def execLt (a b c : Operand) (s : State) : Host.Outcome State Fault Refusal :=
  s.settle (s.binaryToCell a b c fun x y => .ok (boolWord (decide (x.toInt < y.toInt))))

/-- `EQ a, b, c`: `x = y` (R181). -/
def execEq (a b c : Operand) (s : State) : Host.Outcome State Fault Refusal :=
  s.settle (s.binaryToCell a b c fun x y => .ok (boolWord (decide (x.toInt = y.toInt))))

end Sys2Proof.Machine
end

