-- ==== Sys2Proof/Machine/InputOutput.lean ====
section
/-! DEFINITION. `IN` and `OUT` (42_io.md R141, R142): phases 4 to 6 of the step. -/

namespace Sys2Proof.Machine

/-- `IN c`: the target address is resolved before the input is taken; then `M[c] <- v`, `PC` advances, and
in batch mode the head of `IN_Q` is removed (R140, R141). -/
def execIn (c : Operand) (s : State) : Host.Outcome State Fault Refusal :=
  s.settle do
    let t ← s.writeAddress 1 c
    let (v, rest) ← s.readInput
    .ok (((s.setCell t v).setInQ rest).advance 2)

/-- `OUT a`: the value goes to `OUT_SEQ` or to `OUT_SLOT` by the I/O mode (R142). -/
def execOut (a : Operand) (s : State) : Host.Outcome State Fault Refusal :=
  s.settle do
    let x ← s.readOperand a
    .ok ((s.emit x).advance 2)

end Sys2Proof.Machine
end

