-- ==== Sys2Proof/Machine/Jumps.lean ====
section
/-! DEFINITION. `JT` and `JF` (43_jumps.md R160, R161): phases 4 to 6 of the step. -/

namespace Sys2Proof.Machine

/-- `JT a, b`: any nonzero condition is true (R160). -/
def execJt (a b : Operand) (s : State) : Host.Outcome State Fault Refusal :=
  s.settle (s.jumpWhen a b fun x => decide (x.toInt ≠ 0))

/-- `JF a, b`: only 0 is false (R161). -/
def execJf (a b : Operand) (s : State) : Host.Outcome State Fault Refusal :=
  s.settle (s.jumpWhen a b fun x => decide (x.toInt = 0))

end Sys2Proof.Machine
end

