-- ==== Sys2Proof/Machine/Fetch.lean ====
section
/-! DEFINITION. Phases 1 to 3 of a step (46_host_interface.md R222): fetch, decode, argument fetch; and
placing an instruction where the next step fetches it. -/

namespace Sys2Proof.Machine

/-- Phase 3: the argument cells `raw(i)` to `raw(i + n - 1)`, in order (R222). -/
def State.fetchArgs (s : State) : Nat → Nat → Except Trap (List Word)
  | _, 0 => .ok []
  | i, n + 1 => do
    let v ← s.memRead (s.pc.toInt + i)
    let vs ← s.fetchArgs (i + 1) n
    .ok (v :: vs)

/-- Phase 2: the decode of a cell under the machine's policy (R222, 30_encoding.md R75, R88). -/
def State.decodeAt (s : State) (cell : Word) : Except Trap DecodedCell :=
  match decodeCell s.cfg.excess cell with
  | .ok d => .ok d
  | .error e => .error (.decode e)

/-- Phases 1 to 3: the instruction at `PC`, decoded from the cell's current value (30_encoding.md R89,
20_memory.md R63), or the first error of the phases (60_exceptions.md R264, 1 to 6). -/
def State.fetchInstr (s : State) : Except Trap Instr := do
  let cell ← s.memRead s.pc.toInt
  let d ← s.decodeAt cell
  let raw ← s.fetchArgs 1 d.op.arity
  .ok (d.toInstr raw)

/-- The cells from `PC` up to the end of memory, as far as the longest instruction reaches (R83). -/
def State.cellsAtPc (s : State) : List Word :=
  if inBounds s.cfg s.pc.toInt then
    (List.range (min 4 (s.cfg.memSize - s.pc.toInt.toNat))).map fun k =>
      s.mem.read (s.pc.toInt.toNat + k)
  else []

/-- The run command that `placeForFetch` leaves running: the one that runs, or `pipe`, the command that
stages an input and stops after an output (log 12). -/
def Port.forFetch : Port → RunCommand
  | .running .eval => .eval
  | .running .pipe => .pipe
  | .running (.consumeSingleInput _) => .consumeSingleInput false
  | .idle => .pipe
  | .returned _ => .pipe

/-- The address where `placeForFetch` puts `n` cells: `PC`, or 0 where they do not fit there. -/
def State.placeAt (s : State) (n : Nat) : Nat :=
  if 0 ≤ s.pc.toInt ∧ s.pc.toInt + (n : Int) ≤ (s.cfg.memSize : Int) then s.pc.toInt.toNat else 0

/-- `s` with an instruction's cells where the very next step fetches them, and with what that step needs:
a run command in progress, no halt and no recorded fault (R224; log 12). -/
def State.placeForFetch (s : State) (cells : List Word) : State :=
  { s with
    mem := s.mem.writeFrom (s.placeAt cells.length) (cells.take s.cfg.memSize)
    pc := BitVec.ofNat 64 (s.placeAt cells.length)
    halt := false
    fault := .empty
    port := .running s.port.forFetch }

end Sys2Proof.Machine
end

