-- ==== Sys2Proof/Machine/RunLoop.lean ====
section
/-! DEFINITION. The engine's single step and one pass of the run loop (46_host_interface.md R222 to
R227). -/

namespace Sys2Proof.Machine

/-- The step outcomes of a step that does not fault (R223). -/
inductive StepOutcome where
  | output (v : Word)
  | inputRead
  | halted
  | continue
  deriving DecidableEq, Repr

/-- The command ends with a response. -/
def State.respond (s : State) (r : Response) : State := { s with port := .returned r }

/-- The command goes on. -/
def State.goOn (s : State) (c : RunCommand) : State := { s with port := .running c }

/-- The value an `OUT` has just emitted, by the I/O mode (42_io.md R142). -/
def State.lastOutput (s : State) : Word :=
  match s.ioMode with
  | .batch => s.outSeq.getLastD 0
  | .step => s.outSlot

/-- The step outcome of an instruction, read in the state it leaves (R223). -/
def State.stepOutcome (s : State) (i : Instr) : StepOutcome :=
  match i with
  | .add _ _ _ => .continue
  | .mul _ _ _ => .continue
  | .inp _ => .inputRead
  | .out _ => .output s.lastOutput
  | .jt _ _ => .continue
  | .jf _ _ => .continue
  | .lt _ _ _ => .continue
  | .eq _ _ _ => .continue
  | .arb _ => .continue
  | .halt => .halted

/-- The response of a command that finds `HALT = 1` (R224): `ok`, or `None` of `pipe`. -/
def RunCommand.haltedResponse : RunCommand → Response
  | .eval => .ok
  | .pipe => .noOutput
  | .consumeSingleInput _ => .ok

/-- The opcode class of the cell at `PC` is `IN`; only the class is looked at (R227). -/
def State.inputAtPc (s : State) : Bool :=
  inBounds s.cfg s.pc.toInt &&
    decide (0 ≤ (s.mem.read s.pc.toInt.toNat).toInt) &&
    decide ((s.mem.read s.pc.toInt.toNat).toInt.toNat % 100 = 3)

/-- `stop.before(PC, M)`: only `consumeSingleInput` stops before an instruction, at the fetch of an `IN`
when one has executed in this command (R227). -/
def State.stopsBefore (s : State) : RunCommand → Bool
  | .eval => false
  | .pipe => false
  | .consumeSingleInput consumed => consumed && s.inputAtPc

/-- `stop.after(outcome)`, and the latch of `consumeSingleInput` (R225 to R227): what the command does
after a step that did not fault. -/
def State.afterOutcome (s : State) (c : RunCommand) (o : StepOutcome) : State :=
  match c with
  | .eval => s.goOn .eval
  | .pipe =>
    match o with
    | .output v => s.respond (.output v)
    | .inputRead => s.goOn .pipe
    | .halted => s.goOn .pipe
    | .continue => s.goOn .pipe
  | .consumeSingleInput consumed =>
    match o with
    | .inputRead => s.goOn (.consumeSingleInput true)
    | .output _ => s.goOn (.consumeSingleInput consumed)
    | .halted => s.goOn (.consumeSingleInput consumed)
    | .continue => s.goOn (.consumeSingleInput consumed)

/-- After an instruction: a recorded fault ends the command with that fault (60_exceptions.md R261 4);
otherwise the command looks at the step outcome. -/
def State.afterInstr (s : State) (c : RunCommand) (i : Instr) : State :=
  if s.faulted then s.respond (.fault s.fault) else s.afterOutcome c (s.stepOutcome i)

/-- An error of phases 1 to 3: recorded, and the command ends with it (R261). -/
def State.failFetch (s : State) (t : Trap) : State :=
  (s.raise t).respond (.fault (s.raise t).fault)

/-- `Execute(mode)` and the tests around it, for a command that goes on (R222, R224). -/
def State.execute (s : State) (c : RunCommand) : Host.Outcome State Fault Refusal :=
  match s.fetchInstr with
  | .error t => .next (s.failFetch t)
  | .ok i =>
    match exec i s with
    | .next s' => .next (s'.afterInstr c i)
    | .fault r => .fault r
    | .refused r => .refused r

/-- One pass of `RunLoop` (R224): a recorded fault, then `HALT`, then the command's own stop, then one
instruction. -/
def State.loopPass (s : State) (c : RunCommand) : Host.Outcome State Fault Refusal :=
  if s.faulted then .next (s.respond (.fault s.fault))
  else if s.halt then .next (s.respond c.haltedResponse)
  else if s.stopsBefore c then .next (s.respond .ok)
  else s.execute c

/-- A Machine with no command in progress is idle and keeps all its state (60_exceptions.md R275; log 6). -/
def State.runStep (s : State) : Host.Outcome State Fault Refusal :=
  match s.port with
  | .running c => s.loopPass c
  | .idle => .next s
  | .returned _ => .next s

end Sys2Proof.Machine
end

