-- ==== Sys2Proof/Machine/Step.lean ====
section
/-! DEFINITION. The step of the machine, and an instruction placed where it fetches. -/

namespace Sys2Proof.Machine

/-- One step: one pass of the run loop of the command in progress (46_host_interface.md R224; log 7). -/
def step (s : State) : Host.Outcome State Fault Refusal := s.runStep

/-- `s` with the instruction whose bits are `w`, as spec/opcode_table.json numbers them, stored where the
next step fetches (log 12). -/
def State.withFetchWord (s : State) (nbits w : Nat) : State := s.placeForFetch (tableCells nbits w)

end Sys2Proof.Machine
end

