-- ==== Sys2Proof/Machine/Loader.lean ====
section
/-! DEFINITION. The text side of the program loader: `parse` (40_loader.md R100 to R104) and `stringify`
(R105). Pure functions, with no machine. -/

namespace Sys2Proof.Machine

/-- The whitespace characters: space, tab, line feed, vertical tab, form feed, carriage return (R102). -/
def isSpace (c : Char) : Bool := [32, 9, 10, 11, 12, 13].contains c.toNat

/-- The tokens of a text: split at every comma, in textual order (R101). -/
def splitCommas : List Char → List (List Char)
  | [] => [[]]
  | c :: cs =>
    if c = ',' then [] :: splitCommas cs
    else
      match splitCommas cs with
      | [] => [[c]]
      | t :: ts => (c :: t) :: ts

/-- A token without its leading and trailing whitespace (R102). -/
def trimToken (t : List Char) : List Char :=
  ((t.dropWhile isSpace).reverse.dropWhile isSpace).reverse

/-- A decimal digit character (R103). -/
def isDigit (c : Char) : Bool := decide (48 ≤ c.toNat) && decide (c.toNat ≤ 57)

/-- The value of one digit character (R103). -/
def digitValue (c : Char) : Nat := c.toNat - 48

/-- The value of a string of digits read in base 10, after a value already read (R103). -/
def digitsValue (acc : Nat) (t : List Char) : Nat := t.foldl (fun n c => 10 * n + digitValue c) acc

/-- `[0-9]+`, at least one digit and nothing else (R103). -/
def readDigits (t : List Char) : Option Nat :=
  if t.isEmpty then none else if t.all isDigit then some (digitsValue 0 t) else none

/-- The exact value of `[+-]?[0-9]+` (R103). -/
def readSigned : List Char → Option Int
  | [] => none
  | c :: cs =>
    if c = '-' then (readDigits cs).map fun (n : Nat) => -(n : Int)
    else if c = '+' then (readDigits cs).map fun (n : Nat) => (n : Int)
    else (readDigits (c :: cs)).map fun (n : Nat) => (n : Int)

/-- A valid signed integer literal: the grammar of R103, with its value in the signed 64-bit range. -/
def readLiteral (t : List Char) : Option Word :=
  match readSigned t with
  | none => none
  | some v => if fits64 v then some (wrap64 v) else none

/-- The tokens' values, the first token having position `i`; the first that is no literal fails with its
position (R104). -/
def parseTokens : Nat → List (List Char) → Except Fault (List Word)
  | _, [] => .ok []
  | i, t :: ts =>
    match readLiteral (trimToken t) with
    | none => .error (.parseError i)
    | some v => do
      let vs ← parseTokens (i + 1) ts
      .ok (v :: vs)

/-- `parse(text)` (R100). -/
def parse (text : List Char) : Except Fault (List Word) := parseTokens 0 (splitCommas text)

/-- `parse` of a string. -/
def parseText (text : String) : Except Fault (List Word) := parse text.toList

/-! ## Writing a program out (R105) -/

/-- An integer in plain decimal, with `-` for negatives (R105). -/
def decimal (v : Int) : List Char :=
  if v < 0 then '-' :: Nat.toDigits 10 v.natAbs else Nat.toDigits 10 v.natAbs

/-- `stringify(P)`: the items in plain decimal, joined by commas (R105). -/
def stringify : List Word → List Char
  | [] => []
  | [v] => decimal v.toInt
  | v :: w :: rest => decimal v.toInt ++ ',' :: stringify (w :: rest)

end Sys2Proof.Machine
end

