-- ==== Sys2Proof/Machine/Assembler.lean ====
section
/-! DEFINITION. The assembler syntax of 30_encoding.md R86, with no pseudo-instructions (R87): lines read
into cells, and lines written out. A program in cells is all the machine sees. -/

namespace Sys2Proof.Machine

/-- The mnemonic of a class (R72). -/
def mnemonicText : Opcode → List Char
  | .add => "ADD".toList
  | .mul => "MUL".toList
  | .inp => "IN".toList
  | .out => "OUT".toList
  | .jt => "JT".toList
  | .jf => "JF".toList
  | .lt => "LT".toList
  | .eq => "EQ".toList
  | .arb => "ARB".toList
  | .halt => "HALT".toList

/-- The ten classes, in the table's order (R72). -/
def allOpcodes : List Opcode := [.add, .mul, .inp, .out, .jt, .jf, .lt, .eq, .arb, .halt]

/-- The class a mnemonic names. -/
def opcodeOfText (t : List Char) : Option Opcode := allOpcodes.find? fun op => mnemonicText op == t

/-- A line: an instruction, or a data cell (R86). -/
inductive AsmLine where
  | instr (i : Instr)
  | data (v : Word)
  deriving DecidableEq, Repr

/-- The cells of a line (R70, R85, R86). -/
def AsmLine.cells : AsmLine → List Word
  | .instr i => encode i
  | .data v => [v]

/-! ## Writing a line -/

/-- An operand as R86 writes it: `[a]`, `#v`, `[rb+o]`, or `[rb-o]` for a negative offset. -/
def operandText (o : Operand) : List Char :=
  match o.mode with
  | .position => '[' :: decimal o.raw.toInt ++ [']']
  | .immediate => '#' :: decimal o.raw.toInt
  | .relative =>
    if o.raw.toInt < 0 then "[rb".toList ++ decimal o.raw.toInt ++ [']']
    else "[rb+".toList ++ decimal o.raw.toInt ++ [']']

/-- The operands of a line, joined by a comma and a space (R86). -/
def operandsText : List Operand → List Char
  | [] => []
  | [o] => operandText o
  | o :: p :: rest => operandText o ++ ", ".toList ++ operandsText (p :: rest)

/-- A line as R86 writes it. -/
def AsmLine.text : AsmLine → List Char
  | .instr i =>
    if i.operands.isEmpty then mnemonicText i.opcode
    else mnemonicText i.opcode ++ ' ' :: operandsText i.operands
  | .data v => decimal v.toInt

/-! ## Reading a line -/

/-- What stands inside the brackets of an operand: an address, or `rb` and a signed offset (R86). -/
def readBracket (t : List Char) : Option Operand :=
  match t with
  | 'r' :: 'b' :: rest =>
    match trimToken rest with
    | '+' :: ds => (readLiteral ('+' :: ds)).map fun v => { mode := .relative, raw := v }
    | '-' :: ds => (readLiteral ('-' :: ds)).map fun v => { mode := .relative, raw := v }
    | _ => none
  | _ => (readLiteral t).map fun v => { mode := .position, raw := v }

/-- An operand of R86. White space inside it is as log 21 says. -/
def readOperandText (t : List Char) : Option Operand :=
  match t with
  | '#' :: rest => (readLiteral (trimToken rest)).map fun v => { mode := .immediate, raw := v }
  | '[' :: rest =>
    match rest.reverse with
    | ']' :: inner => readBracket (trimToken inner.reverse)
    | _ => none
  | _ => none

/-- The operands of a line: none, or a list separated by commas. -/
def readOperandsText (t : List Char) : Option (List Operand) :=
  if (trimToken t).isEmpty then some []
  else (splitCommas t).mapM fun u => readOperandText (trimToken u)

/-- The instruction of a class with a list of operands, if it has as many as the arity (R72). -/
def instrOf (op : Opcode) (os : List Operand) : Option Instr :=
  if os.length = op.arity then
    some (({ op := op, modes := os.map Operand.mode } : DecodedCell).toInstr (os.map Operand.raw))
  else none

/-- A line of R86 read: a mnemonic and its operands, `.word` and an integer, or a bare integer. -/
def readLine (line : List Char) : Option AsmLine :=
  let t := trimToken line
  let name := t.takeWhile fun c => !isSpace c
  let rest := t.dropWhile fun c => !isSpace c
  if name = ".word".toList then (readLiteral (trimToken rest)).map AsmLine.data
  else
    match opcodeOfText name with
    | some op => ((readOperandsText rest).bind (instrOf op)).map AsmLine.instr
    | none => (readLiteral t).map AsmLine.data

/-- A program in assembler lines as cells (R86). -/
def assemble (lines : List (List Char)) : Option (List Word) :=
  (lines.mapM readLine).map fun ls => ls.flatMap AsmLine.cells

end Sys2Proof.Machine
end

