-- ==== Sys2Proof/Machine/Commands.lean ====
section
/-! DEFINITION. The host commands that act on a Machine (46_host_interface.md R220, R224 to R231,
40_loader.md R106 to R110, 70_reset_and_hazards.md R290). -/

namespace Sys2Proof.Machine

/-- The commands that change a Machine (R220). -/
inductive HostCommand where
  /-- `reset` (70_reset_and_hazards.md R290). -/
  | reset
  /-- `loadCode(program)` (40_loader.md R106). -/
  | loadCode (program : List Word)
  /-- `eval(inputs)`, the inputs optional (R225). -/
  | eval (inputs : Option (List Word))
  /-- `pipe(input)` (R226). -/
  | pipe (input : Word)
  /-- `consumeSingleInput(input)` (R227). -/
  | consumeSingleInput (input : Word)
  deriving DecidableEq, Repr

/-- A run command is executing. -/
def State.isRunning (s : State) : Bool :=
  match s.port with
  | .running _ => true
  | .idle => false
  | .returned _ => false

/-- `reset`: every piece of state at its reset value, the parameters kept (R290). -/
def State.doReset (s : State) : State := State.new s.cfg

/-- `loadCode`: `M[a] <- P[a]`, and nothing else; a program longer than memory changes nothing and
answers `OutOfBoundsAddress(MEM_SIZE)` without recording it (R106 to R108). -/
def State.loadCode (s : State) (program : List Word) : Host.Outcome State Fault Refusal :=
  if program.length > s.cfg.memSize then .fault (.outOfBoundsAddress s.cfg.memSize)
  else .next { s with mem := s.mem.writeFrom 0 program }

/-- The start of a run command: with a fault recorded it executes nothing, stages nothing and answers
the fault (R224 to R227; 60_exceptions.md R268). -/
def State.startRun (s : State) (c : RunCommand) (stage : State → State) : State :=
  if s.faulted then { s with port := .returned (.fault s.fault) }
  else { stage s with port := .running c }

/-- `IN_SLOT <- x` (R226, R227). -/
def State.stageInput (x : Word) (s : State) : State := { s with inSlot := x }

/-- `eval`: `IN_Q` becomes the inputs, or empty, and a batch run starts (R225). -/
def State.startEval (s : State) (inputs : Option (List Word)) : State :=
  s.startRun .eval fun s => { s with inQ := inputs.getD [] }

/-- `pipe`: `IN_SLOT <- x`, and a step-mode run starts (R226). -/
def State.startPipe (s : State) (x : Word) : State := s.startRun .pipe (State.stageInput x)

/-- `consumeSingleInput`: `IN_SLOT <- x`, the latch is clear, and a step-mode run starts (R227). -/
def State.startConsume (s : State) (x : Word) : State :=
  s.startRun (.consumeSingleInput false) (State.stageInput x)

/-- Issuing a command. No command can be issued while a run command is executing (R221; log 16). -/
def State.issue (s : State) (c : HostCommand) : Host.Outcome State Fault Refusal :=
  if s.isRunning then .refused .busy
  else
    match c with
    | .reset => .next s.doReset
    | .loadCode program => s.loadCode program
    | .eval inputs => .next (s.startEval inputs)
    | .pipe x => .next (s.startPipe x)
    | .consumeSingleInput x => .next (s.startConsume x)

/-! ## The read ports (R231) -/

/-- What the host may read between commands (R231). -/
inductive ReadPort where
  | cell (a : Int)
  | outSeq
  | outSlot
  | pc
  | rb
  | status
  | fault
  deriving DecidableEq, Repr

/-- What a read port answers. -/
inductive PortValue where
  | word (v : Word)
  | words (vs : List Word)
  | status (st : Status)
  | record (f : FaultRecord)
  deriving DecidableEq, Repr

/-- A read port: no side effect; an address out of bounds answers `OutOfBoundsAddress` (R231). -/
def State.readPort (s : State) (p : ReadPort) : Host.Outcome PortValue Fault Refusal :=
  if s.isRunning then .refused .busy
  else
    match p with
    | .cell a =>
      if inBounds s.cfg a then .next (.word (s.mem.read a.toNat)) else .fault (.outOfBoundsAddress a)
    | .outSeq => .next (.words s.outSeq)
    | .outSlot => .next (.word s.outSlot)
    | .pc => .next (.word s.pc)
    | .rb => .next (.word s.rb)
    | .status => .next (.status s.status)
    | .fault => .next (.record s.fault)

end Sys2Proof.Machine
end

