-- ==== Sys2Proof/Machine/Run.lean ====
section
/-! DEFINITION. A whole host command, run under fuel (46_host_interface.md R221, R225 to R227, R234). -/

namespace Sys2Proof.Machine

/-- Steps until the command in progress has returned. Running out of fuel is "not yet returned", never a
result (R234; log 18). -/
def State.runToReturn : Nat → State → Option (State × Response)
  | 0, s =>
    match s.port with
    | .returned r => some (s, r)
    | .idle => none
    | .running _ => none
  | fuel + 1, s =>
    match s.port with
    | .returned r => some (s, r)
    | .idle => none
    | .running _ =>
      match step s with
      | .next s' => State.runToReturn fuel s'
      | .fault _ => none
      | .refused _ => none

/-- The state after `k` steps (a step always answers a next state). -/
def State.stepTimes : Nat → State → Option State
  | 0, s => some s
  | k + 1, s =>
    match step s with
    | .next s' => State.stepTimes k s'
    | .fault _ => none
    | .refused _ => none

/-- A run command issued to a Machine and run to its response, if it has one within the fuel (R220). -/
def State.runCommand (fuel : Nat) (s : State) (c : HostCommand) : Option (State × Response) :=
  match s.issue c with
  | .next s' => s'.runToReturn fuel
  | .fault _ => none
  | .refused _ => none

end Sys2Proof.Machine
end

