-- ==== Sys2Proof/Machine/System.lean ====
section
/-! DEFINITION. Several Machines of one host (60_exceptions.md R273): each has its own state, and the host
chooses the order in which it acts on them. -/

namespace Sys2Proof.Machine

/-- The Machines of a host, by position: they have no identifiers of their own (R273). -/
abbrev System := List State

/-- An action on one Machine (R273; log 20). -/
def System.onMachine (sys : System) (k : Nat) (act : State → Host.Outcome State Fault Refusal) :
    Host.Outcome System Fault Refusal :=
  match sys[k]? with
  | none => .refused (.noSuchMachine k)
  | some s =>
    match act s with
    | .next s' => .next (sys.set k s')
    | .fault r => .fault r
    | .refused r => .refused r

/-- Machine `k` takes a step. -/
def System.stepAt (sys : System) (k : Nat) : Host.Outcome System Fault Refusal :=
  System.onMachine sys k step

/-- The host issues a command to Machine `k`. -/
def System.issueAt (sys : System) (k : Nat) (c : HostCommand) : Host.Outcome System Fault Refusal :=
  System.onMachine sys k fun s => s.issue c

end Sys2Proof.Machine
end

