-- ==== Sys2Proof/Safety.lean ====
section
/-! DEFINITION. What a sound state and a good end of a run are, in the terms the statements use. -/

namespace Sys2Proof.Machine

/-- The fields a fault kind does not use are 0, and the ones it uses hold their legal values (10_state.md
R31, 60_exceptions.md R260). -/
def FaultRecord.wf (f : FaultRecord) : Bool :=
  match f.kind with
  | .none => f = FaultRecord.empty
  | .invalidOpcode => decide (f.addr = 0 ∧ f.slot = 0 ∧ f.digit = 0 ∧ f.value = 0)
  | .invalidAddressingMode =>
    decide (f.addr = 0 ∧ 1 ≤ f.slot.toNat ∧ f.slot.toNat ≤ 17 ∧ f.digit.toNat ≤ 9 ∧ f.value = 0)
  | .inputExhausted =>
    decide (f.addr = 0 ∧ f.cell = 0 ∧ f.slot = 0 ∧ f.digit = 0 ∧ f.value = 0)
  | .outOfBoundsAddress => decide (f.cell = 0 ∧ f.slot = 0 ∧ f.digit = 0 ∧ f.value = 0)
  | .illegalWriteMode =>
    decide (f.addr = 0 ∧ (f.slot = 1 ∨ f.slot = 3) ∧ f.digit = 0 ∧ f.value = 0)
  | .arithmeticOverflow => decide (f.addr = 0 ∧ f.cell = 0 ∧ f.slot = 0 ∧ f.digit = 0)

/-- What holds of every state a run reaches: a capacity that `PC` cannot overflow (R22), memory in its one
form and inside `[0, MEM_SIZE)` (R26, R52), a fault record with legal fields (R31), never `HALT = 1` with a
recorded fault (R32), and no run command in progress once a fault is recorded (R261, R265). -/
abbrev State.Inv (s : State) : Prop :=
  s.cfg.wf = true ∧ s.mem.wf s.cfg.memSize = true ∧ s.fault.wf = true ∧
    (s.halt && s.faulted) = false ∧ (s.isRunning && s.faulted) = false

/-- The address an instruction stores to in `s`, if it stores and the address resolves: `EA(3)` of `ADD`,
`MUL`, `LT` and `EQ`, `EA(1)` of `IN` (30_encoding.md R72, R81). -/
def State.storeAddress (s : State) : Instr → Option Nat
  | .add _ _ c => (s.writeAddress 3 c).toOption
  | .mul _ _ c => (s.writeAddress 3 c).toOption
  | .inp c => (s.writeAddress 1 c).toOption
  | .out _ => none
  | .jt _ _ => none
  | .jf _ _ => none
  | .lt _ _ c => (s.writeAddress 3 c).toOption
  | .eq _ _ c => (s.writeAddress 3 c).toOption
  | .arb _ => none
  | .halt => none

/-- `s'` is `s` but for cell `t` and `PC`, which has advanced by `k`. -/
def State.ChangedOnlyCellAndPc (s s' : State) (t k : Nat) : Prop :=
  (∀ a, a ≠ t → s'.mem.read a = s.mem.read a) ∧ s' = { s with mem := s'.mem, pc := s.pc + BitVec.ofNat 64 k }

/-- The kinds of error an instruction can raise once it is decoded, by the table of 60_exceptions.md R262
(the argument fetches included). -/
def canRaise : Opcode → FaultKind → Bool
  | .add, k => k == .outOfBoundsAddress || k == .arithmeticOverflow
  | .mul, k => k == .outOfBoundsAddress || k == .arithmeticOverflow
  | .inp, k => k == .outOfBoundsAddress || k == .inputExhausted
  | .out, k => k == .outOfBoundsAddress
  | .jt, k => k == .outOfBoundsAddress
  | .jf, k => k == .outOfBoundsAddress
  | .lt, k => k == .outOfBoundsAddress
  | .eq, k => k == .outOfBoundsAddress
  | .arb, k => k == .outOfBoundsAddress || k == .arithmeticOverflow
  | .halt, _ => false

/-- A run that ended well: the last run command has returned, at whichever stopping point is its own, and no
fault is recorded. R298 (70_reset_and_hazards.md) gives the end of each command and says only that a faulted
end is not a successful one; that every other end is, a `pipe` end at an `OUT` and a `consumeSingleInput`
stop included, is the model's choice. DESIGN CHOICE (log 26). -/
def State.endedWell (s : State) : Bool :=
  match s.port with
  | .returned _ => !s.faulted
  | .idle => false
  | .running _ => false

/-- The states that host commands and steps reach from a Machine just made (R228). -/
inductive State.Reachable : State → Prop where
  | new (c : Config) : c.wf = true → State.Reachable (State.new c)
  | issue {s s' : State} (c : HostCommand) :
      State.Reachable s → s.issue c = .next s' → State.Reachable s'
  | step {s s' : State} :
      State.Reachable s → step s = .next s' → State.Reachable s'

end Sys2Proof.Machine
end

