-- ==== Sys2Proof/Certificates/Slice0/Obligations.lean ====
section
/-! DEFINITION. The statements for the provers: the numbered rules of spec/ that say what an instruction, the
machine or a host command does. -/

open Sys2Proof Sys2Proof.Machine

/-! ## Encoding and decoding -/

/-- 30_encoding.md R75, R85: the decoder gives back every well-formed instruction from its cells, with every
operand, under either policy, and leaves the cells after it. -/
def Obligations.DecodeOfEncodeIsTheInstruction : Prop :=
  ∀ (p : ExcessPolicy) (i : Instr) (rest : List Word), i.wf = true →
    decode p (encode i ++ rest) = .ok (i, rest)

/-- 30_encoding.md R75, R78, R84, R85: under the `fault` policy an instruction has one encoding only, so the
cells the decoder accepts are the encoding of the well-formed instruction it answers. -/
def Obligations.AcceptedCellsAreTheEncoding : Prop :=
  ∀ (cells rest : List Word) (i : Instr), decode .fault cells = .ok (i, rest) →
    i.wf = true ∧ cells = encode i ++ rest

/-- 30_encoding.md R72, R74, R85, 95_test_vectors.md V-DEC-1: a word of every opcode class, written out digit
by digit from the spec's encoding. -/
def Obligations.SpecWordsDecode : Prop :=
  decode .fault [1002, 4, 3, 4] = .ok (.mul ⟨.position, 4⟩ ⟨.immediate, 3⟩ ⟨.position, 4⟩, []) ∧
  decode .fault [22201, 1, 2, 3] = .ok (.add ⟨.relative, 1⟩ ⟨.relative, 2⟩ ⟨.relative, 3⟩, []) ∧
  decode .fault [203, 7] = .ok (.inp ⟨.relative, 7⟩, []) ∧
  decode .fault [104, 7] = .ok (.out ⟨.immediate, 7⟩, []) ∧
  decode .fault [1105, 1, 7] = .ok (.jt ⟨.immediate, 1⟩ ⟨.immediate, 7⟩, []) ∧
  decode .fault [1206, 0, 20] = .ok (.jf ⟨.relative, 0⟩ ⟨.immediate, 20⟩, []) ∧
  decode .fault [21107, 5, 3, 9] = .ok (.lt ⟨.immediate, 5⟩ ⟨.immediate, 3⟩ ⟨.relative, 9⟩, []) ∧
  decode .fault [8, 0, 0, 9] = .ok (.eq ⟨.position, 0⟩ ⟨.position, 0⟩ ⟨.position, 9⟩, []) ∧
  decode .fault [109, 1] = .ok (.arb ⟨.immediate, 1⟩, []) ∧
  decode .fault [99] = .ok (.halt, []) ∧
  decode .fault [1099] = .error (.illegal (.invalidAddressingMode 1099 2 1)) ∧
  decode .ignore [1099] = .ok (.halt, [])

/-- 30_encoding.md R76: exactly the negative cells and the cells whose low two digits are no opcode raise
`InvalidOpcode`. -/
def Obligations.InvalidOpcodeExactly : Prop :=
  ∀ (p : ExcessPolicy) (cell : Word),
    decodeCell p cell = .error (.invalidOpcode cell) ↔
      (cell.toInt < 0 ∨ cell.toInt % 100 ∉ ([1, 2, 3, 4, 5, 6, 7, 8, 9, 99] : List Int))

/-- 30_encoding.md R77: the mode digit 3 to 9 of an argument the opcode has raises, and the lowest such
argument is reported. -/
def Obligations.InvalidModeDigitIsReportedAtItsArgument : Prop :=
  ∀ (p : ExcessPolicy) (cell : Word) (op : Opcode) (i : Nat), 0 ≤ cell.toInt →
    Opcode.ofNumber (cell.toInt.toNat % 100) = some op → 1 ≤ i → i ≤ op.arity →
    3 ≤ digit cell.toInt.toNat (1 + i) →
    (∀ k, 1 ≤ k → k < i → digit cell.toInt.toNat (1 + k) ≤ 2) →
    decodeCell p cell = .error (.invalidAddressingMode cell i (digit cell.toInt.toNat (1 + i)))

/-- 30_encoding.md R78: a nonzero excess digit raises under the `fault` policy, with the lowest such digit and
its slot; under `ignore` the digits above the modes are not looked at. -/
def Obligations.ExcessDigitFollowsThePolicy : Prop :=
  ∀ (cell : Word) (op : Opcode), 0 ≤ cell.toInt →
    Opcode.ofNumber (cell.toInt.toNat % 100) = some op →
    (∀ k, 1 ≤ k → k ≤ op.arity → digit cell.toInt.toNat (1 + k) ≤ 2) →
    (∀ j, op.arity < j → digit cell.toInt.toNat (1 + j) ≠ 0 →
      (∀ k, op.arity < k → k < j → digit cell.toInt.toNat (1 + k) = 0) →
      decodeCell .fault cell =
        .error (.invalidAddressingMode cell j (digit cell.toInt.toNat (1 + j)))) ∧
    ((∀ j, op.arity < j → digit cell.toInt.toNat (1 + j) = 0) →
      decodeCell .fault cell = decodeCell .ignore cell) ∧
    ∀ d, decodeCell .ignore cell = .ok d ↔
      decodeCell .ignore (BitVec.ofNat 64 (cell.toInt.toNat % 10 ^ (2 + op.arity))) = .ok d

/-- 30_encoding.md R79: a cell with legal digits decodes unless a write target is Immediate, which raises
`IllegalWriteMode`; Immediate is legal on every read operand. The write targets are argument 3 of `ADD`,
`MUL`, `LT` and `EQ` and argument 1 of `IN`. -/
def Obligations.ImmediateIsIllegalExactlyOnWriteTargets : Prop :=
  (∀ (p : ExcessPolicy) (cell : Word) (op : Opcode), 0 ≤ cell.toInt →
    Opcode.ofNumber (cell.toInt.toNat % 100) = some op →
    (∀ k, 1 ≤ k → k ≤ op.arity → digit cell.toInt.toNat (1 + k) ≤ 2) →
    (p = .fault → cell.toInt.toNat < 10 ^ (2 + op.arity)) →
    (∀ i ∈ op.writeSlots, digit cell.toInt.toNat (1 + i) = 1 →
      decodeCell p cell = .error (.illegalWriteMode cell i)) ∧
    ((∀ i ∈ op.writeSlots, digit cell.toInt.toNat (1 + i) ≠ 1) →
      ∃ modes, decodeCell p cell = .ok { op := op, modes := modes })) ∧
  ∀ op : Opcode, op.writeSlots =
    if op ∈ [Opcode.add, .mul, .lt, .eq] then [3] else if op = .inp then [1] else []

/-! ## 64-bit results, cells and operands -/

/-- 00_scope.md R8: `fits64` is the signed 64-bit range, and `wrap64(v)` is the unique word congruent to `v`
modulo `2^64`. -/
def Obligations.WrapIsTheUniqueCongruentWord : Prop :=
  ∀ v : Int, (fits64 v = true ↔ -2 ^ 63 ≤ v ∧ v ≤ 2 ^ 63 - 1) ∧
    ((wrap64 v).toInt - v) % 2 ^ 64 = 0 ∧
    ∀ w : Word, (w.toInt - v) % 2 ^ 64 = 0 → w = wrap64 v

/-- 41_arithmetic.md R120: a result that fits is stored exactly; one that does not raises
`ArithmeticOverflow` with the exact value, or wraps, by the policy. -/
def Obligations.ArithFollowsTheOverflowPolicy : Prop :=
  ∀ (c : Config) (v : Int),
    ((-2 ^ 63 ≤ v ∧ v ≤ 2 ^ 63 - 1) → ∃ r, arith c v = .ok r ∧ r.toInt = v) ∧
    (¬(-2 ^ 63 ≤ v ∧ v ≤ 2 ^ 63 - 1) →
      (c.overflow = .fault → arith c v = .error (.arithmeticOverflow v)) ∧
      (c.overflow = .wrap → ∃ r, arith c v = .ok r ∧ (r.toInt - v) % 2 ^ 64 = 0))

/-- 00_scope.md R10, 20_memory.md R56, R57: a cell written is the cell read, no other cell changes, and
outside `[0, MEM_SIZE)` both raise `OutOfBoundsAddress`. -/
def Obligations.MemReadAndMemWriteAreBoundsChecked : Prop :=
  ∀ (s : State) (a : Int) (v : Word), s.Inv →
    ((0 ≤ a ∧ a < s.cfg.memSize) →
      s.memRead a = .ok (s.mem.read a.toNat) ∧
      ∃ s', s.memWrite a v = .ok s' ∧ s'.memRead a = .ok v ∧
        (∀ b, b ≠ a → s'.memRead b = s.memRead b) ∧ s' = { s with mem := s'.mem }) ∧
    (¬(0 ≤ a ∧ a < s.cfg.memSize) →
      s.memRead a = .error (.outOfBoundsAddress a) ∧ s.memWrite a v = .error (.outOfBoundsAddress a))

/-- 30_encoding.md R80: the value of a read operand in each mode; the Relative sum is exact. -/
def Obligations.ReadOperandByMode : Prop :=
  ∀ (s : State) (raw : Word),
    s.readOperand ⟨.immediate, raw⟩ = .ok raw ∧
    s.readOperand ⟨.position, raw⟩ =
      (if 0 ≤ raw.toInt ∧ raw.toInt < s.cfg.memSize then .ok (s.mem.read raw.toInt.toNat)
       else .error (.outOfBoundsAddress raw.toInt)) ∧
    s.readOperand ⟨.relative, raw⟩ =
      (if 0 ≤ s.rb.toInt + raw.toInt ∧ s.rb.toInt + raw.toInt < s.cfg.memSize then
         .ok (s.mem.read (s.rb.toInt + raw.toInt).toNat)
       else .error (.outOfBoundsAddress (s.rb.toInt + raw.toInt)))

/-- 30_encoding.md R81: the address of a write operand in the two modes it may have, checked when it is
computed. -/
def Obligations.WriteAddressByMode : Prop :=
  ∀ (s : State) (i : Nat) (raw : Word),
    s.writeAddress i ⟨.position, raw⟩ =
      (if 0 ≤ raw.toInt ∧ raw.toInt < s.cfg.memSize then .ok raw.toInt.toNat
       else .error (.outOfBoundsAddress raw.toInt)) ∧
    s.writeAddress i ⟨.relative, raw⟩ =
      (if 0 ≤ s.rb.toInt + raw.toInt ∧ s.rb.toInt + raw.toInt < s.cfg.memSize then
         .ok (s.rb.toInt + raw.toInt).toNat
       else .error (.outOfBoundsAddress (s.rb.toInt + raw.toInt)))

/-! ## Each instruction: where it completes, its result and its frame -/

/-- 41_arithmetic.md R121: `ADD` stores the sum of its operands, read before the write, and changes nothing
else but `PC`. -/
def Obligations.AddStoresTheSum : Prop :=
  ∀ (s : State) (a b c : Operand) (x y : Word) (t : Nat), s.Inv →
    s.readOperand a = .ok x → s.readOperand b = .ok y → s.writeAddress 3 c = .ok t →
    (fits64 (x.toInt + y.toInt) = true ∨ s.cfg.overflow = .wrap) →
    ∃ s', exec (.add a b c) s = .next s' ∧ s'.mem.read t = wrap64 (x.toInt + y.toInt) ∧
      s.ChangedOnlyCellAndPc s' t 4

/-- 41_arithmetic.md R122: `MUL` stores the product of its operands, read before the write, and changes
nothing else but `PC`. -/
def Obligations.MulStoresTheProduct : Prop :=
  ∀ (s : State) (a b c : Operand) (x y : Word) (t : Nat), s.Inv →
    s.readOperand a = .ok x → s.readOperand b = .ok y → s.writeAddress 3 c = .ok t →
    (fits64 (x.toInt * y.toInt) = true ∨ s.cfg.overflow = .wrap) →
    ∃ s', exec (.mul a b c) s = .next s' ∧ s'.mem.read t = wrap64 (x.toInt * y.toInt) ∧
      s.ChangedOnlyCellAndPc s' t 4

/-- 44_compare.md R180: `LT` stores 1 or 0 by the signed comparison, and changes nothing else but `PC`. -/
def Obligations.LessThanStoresTheSignedComparison : Prop :=
  ∀ (s : State) (a b c : Operand) (x y : Word) (t : Nat), s.Inv →
    s.readOperand a = .ok x → s.readOperand b = .ok y → s.writeAddress 3 c = .ok t →
    ∃ s', exec (.lt a b c) s = .next s' ∧
      s'.mem.read t = (if x.toInt < y.toInt then 1 else 0) ∧ s.ChangedOnlyCellAndPc s' t 4

/-- 44_compare.md R181: `EQ` stores 1 or 0 by equality, and changes nothing else but `PC`. -/
def Obligations.EqualsStoresTheComparison : Prop :=
  ∀ (s : State) (a b c : Operand) (x y : Word) (t : Nat), s.Inv →
    s.readOperand a = .ok x → s.readOperand b = .ok y → s.writeAddress 3 c = .ok t →
    ∃ s', exec (.eq a b c) s = .next s' ∧
      s'.mem.read t = (if x = y then 1 else 0) ∧ s.ChangedOnlyCellAndPc s' t 4

/-- 42_io.md R140, R141: in batch mode `IN` stores the head of `IN_Q` and removes it, and changes nothing
else but `PC`. -/
def Obligations.InTakesTheHeadOfTheQueue : Prop :=
  ∀ (s : State) (c : Operand) (t : Nat) (v : Word) (q : List Word), s.Inv →
    s.ioMode = .batch → s.inQ = v :: q → s.writeAddress 1 c = .ok t →
    ∃ s', exec (.inp c) s = .next s' ∧ s'.mem.read t = v ∧ s'.inQ = q ∧
      ({ s with inQ := q } : State).ChangedOnlyCellAndPc s' t 2

/-- 42_io.md R140, R141, R143: in step mode `IN` stores `IN_SLOT`, which is not cleared, and changes nothing
else but `PC`. -/
def Obligations.InReadsTheStagedInput : Prop :=
  ∀ (s : State) (c : Operand) (t : Nat), s.Inv →
    s.ioMode = .step → s.writeAddress 1 c = .ok t →
    ∃ s', exec (.inp c) s = .next s' ∧ s'.mem.read t = s.inSlot ∧ s.ChangedOnlyCellAndPc s' t 2

/-- 42_io.md R142: `OUT` appends to `OUT_SEQ` in batch mode, fills `OUT_SLOT` in step mode, and changes
nothing else but `PC`. -/
def Obligations.OutEmitsByTheIoMode : Prop :=
  ∀ (s : State) (a : Operand) (x : Word), s.readOperand a = .ok x →
    (s.ioMode = .batch →
      exec (.out a) s = .next { s with outSeq := s.outSeq ++ [x], pc := s.pc + 2 }) ∧
    (s.ioMode = .step → exec (.out a) s = .next { s with outSlot := x, pc := s.pc + 2 })

/-- 43_jumps.md R160, R162: `JT` loads the value of operand 2 unchanged and unchecked if operand 1 is not 0,
and advances past itself otherwise; nothing else changes. -/
def Obligations.JumpIfTrueLoadsTheTarget : Prop :=
  ∀ (s : State) (a b : Operand) (x y : Word), s.readOperand a = .ok x → s.readOperand b = .ok y →
    exec (.jt a b) s = .next { s with pc := if x ≠ 0 then y else s.pc + 3 }

/-- 43_jumps.md R161, R162: `JF` loads the value of operand 2 unchanged and unchecked if operand 1 is 0, and
advances past itself otherwise; nothing else changes. -/
def Obligations.JumpIfFalseLoadsTheTarget : Prop :=
  ∀ (s : State) (a b : Operand) (x y : Word), s.readOperand a = .ok x → s.readOperand b = .ok y →
    exec (.jf a b) s = .next { s with pc := if x = 0 then y else s.pc + 3 }

/-- 45_base_halt.md R200: `ARB` adds its operand, resolved with the old `RB`, to `RB`; nothing else changes
but `PC`. -/
def Obligations.ArbAddsToTheRelativeBase : Prop :=
  ∀ (s : State) (a : Operand) (x : Word), s.readOperand a = .ok x →
    (fits64 (s.rb.toInt + x.toInt) = true ∨ s.cfg.overflow = .wrap) →
    exec (.arb a) s = .next { s with rb := wrap64 (s.rb.toInt + x.toInt), pc := s.pc + 2 }

/-- 45_base_halt.md R201: `HALT` sets the flag and nothing else; `PC` keeps the address of the `HALT` cell and
the I/O state is not cleared. -/
def Obligations.HaltSetsOnlyTheFlag : Prop :=
  ∀ s : State, exec .halt s = .next { s with halt := true }

/-- 41_arithmetic.md R120 to R122, 45_base_halt.md R200: under the `fault` policy an exact result outside 64
bits raises `ArithmeticOverflow`, which records the exact value and changes nothing else. -/
def Obligations.OverflowIsRaisedByAddMulAndArb : Prop :=
  ∀ (s : State) (a b c : Operand) (x y : Word) (t : Nat), s.cfg.overflow = .fault →
    s.readOperand a = .ok x →
    (fits64 (s.rb.toInt + x.toInt) = false →
      exec (.arb a) s = .next { s with fault := { FaultRecord.empty with
        kind := .arithmeticOverflow, pc := s.pc, value := s.rb.toInt + x.toInt } }) ∧
    (s.readOperand b = .ok y → s.writeAddress 3 c = .ok t →
      (fits64 (x.toInt + y.toInt) = false →
        exec (.add a b c) s = .next { s with fault := { FaultRecord.empty with
          kind := .arithmeticOverflow, pc := s.pc, value := x.toInt + y.toInt } }) ∧
      (fits64 (x.toInt * y.toInt) = false →
        exec (.mul a b c) s = .next { s with fault := { FaultRecord.empty with
          kind := .arithmeticOverflow, pc := s.pc, value := x.toInt * y.toInt } }))

/-- 42_io.md R140, R141: `IN` in batch mode with `IN_Q` empty raises `InputExhausted`; a target out of bounds
is found first, and then no input is consumed. -/
def Obligations.InputErrorsConsumeNothing : Prop :=
  ∀ (s : State) (c : Operand),
    (∀ t, s.ioMode = .batch → s.inQ = [] → s.writeAddress 1 c = .ok t →
      exec (.inp c) s = .next { s with fault := { FaultRecord.empty with
        kind := .inputExhausted, pc := s.pc } }) ∧
    (∀ a, s.writeAddress 1 c = .error (.outOfBoundsAddress a) →
      exec (.inp c) s = .next { s with fault := { FaultRecord.empty with
        kind := .outOfBoundsAddress, pc := s.pc, addr := a } })

/-- 60_exceptions.md R264 (7): operand and target errors are raised in argument order, before the computation
(here for every instruction with two or three arguments, and for `OUT` and `ARB`). -/
def Obligations.OperandErrorsComeInArgumentOrder : Prop :=
  ∀ (s : State) (a b c : Operand) (e : Trap),
    (s.readOperand a = .error e →
      (∀ i ∈ [Instr.add a b c, .mul a b c, .lt a b c, .eq a b c, .jt a b, .jf a b, .out a, .arb a],
        exec i s = .next (s.raise e))) ∧
    (∀ x, s.readOperand a = .ok x → s.readOperand b = .error e →
      (∀ i ∈ [Instr.add a b c, .mul a b c, .lt a b c, .eq a b c, .jt a b, .jf a b],
        exec i s = .next (s.raise e))) ∧
    (∀ x y, s.readOperand a = .ok x → s.readOperand b = .ok y → s.writeAddress 3 c = .error e →
      (∀ i ∈ [Instr.add a b c, .mul a b c, .lt a b c, .eq a b c], exec i s = .next (s.raise e)))

/-- The frame of every instruction (10_state.md R21 to R33, 46_host_interface.md R222): every cell but the one
stored to, and every register but the ones the instruction's rule names, is unchanged. -/
def Obligations.FrameOfEveryInstruction : Prop :=
  ∀ (i : Instr) (s s' : State), exec i s = .next s' →
    (∀ a, s.storeAddress i ≠ some a → s'.mem.read a = s.mem.read a) ∧
    s'.cfg = s.cfg ∧ s'.inSlot = s.inSlot ∧ s'.port = s.port ∧
    (i.opcode ≠ .arb → s'.rb = s.rb) ∧
    (i.opcode ≠ .halt → s'.halt = s.halt) ∧
    (i.opcode ≠ .inp → s'.inQ = s.inQ) ∧
    (i.opcode ≠ .out → s'.outSeq = s.outSeq ∧ s'.outSlot = s.outSlot) ∧
    (s'.fault ≠ s.fault → s' = { s with fault := s'.fault })

/-! ## The step -/

/-- A step runs the decoded instruction (46_host_interface.md R222, R224): while a command runs, with no
fault, no halt and no stop of the command's own, the step is `exec` of the instruction that the cells at `PC`
decode to, and then what the command does after it.
(The command in progress stands in `port`, a field of the model's own: log 5; one step is one pass of the
run loop: log 7.) -/
def Obligations.StepExecutesTheDecodedInstruction : Prop :=
  ∀ (s s' : State) (c : RunCommand) (i : Instr) (rest : List Word), s.port = .running c →
    s.faulted = false → s.halt = false → s.stopsBefore c = false →
    decode s.cfg.excess s.cellsAtPc = .ok (i, rest) → exec i s = .next s' →
    step s = .next (s'.afterInstr c i)

/-- 46_host_interface.md R223, R225 to R227, 60_exceptions.md R261 (4): after an instruction the command ends
with the fault if one was raised; `pipe` ends with the value of an `OUT`; `consumeSingleInput` notes an
`IN`; otherwise the command goes on. Nothing else changes.
(The response of a command stands in `port`, a field of the model's own: log 5.) -/
def Obligations.CommandGoesOnAsItsRuleSays : Prop :=
  ∀ (s : State) (i : Instr),
    (∀ c, s.faulted = true → s.afterInstr c i = { s with port := .returned (.fault s.fault) }) ∧
    (s.faulted = false →
      s.afterInstr .eval i = { s with port := .running .eval } ∧
      (i.opcode = .out → s.port = .running .pipe →
        s.afterInstr .pipe i = { s with port := .returned (.output s.outSlot) }) ∧
      (i.opcode ≠ .out → s.afterInstr .pipe i = { s with port := .running .pipe }) ∧
      ∀ consumed, s.afterInstr (.consumeSingleInput consumed) i =
        { s with
          port := .running (.consumeSingleInput (consumed || decide (i.opcode = .inp))) })

/-- 60_exceptions.md R264 (1 to 6), 20_memory.md R56 (a, b): the errors of fetch, decode and argument fetch, in
that order; the argument reported is the first one out of bounds. -/
def Obligations.FetchErrorsComeInOrder : Prop :=
  ∀ s : State,
    (¬(0 ≤ s.pc.toInt ∧ s.pc.toInt < s.cfg.memSize) →
      s.fetchInstr = .error (.outOfBoundsAddress s.pc.toInt)) ∧
    ((0 ≤ s.pc.toInt ∧ s.pc.toInt < s.cfg.memSize) →
      (∀ e, decodeCell s.cfg.excess (s.mem.read s.pc.toInt.toNat) = .error e →
        s.fetchInstr = .error (.decode e)) ∧
      (∀ d, decodeCell s.cfg.excess (s.mem.read s.pc.toInt.toNat) = .ok d →
        (s.cfg.memSize ≤ s.pc.toInt + d.op.arity →
          s.fetchInstr = .error (.outOfBoundsAddress s.cfg.memSize)) ∧
        (s.pc.toInt + d.op.arity < s.cfg.memSize → ∃ i, s.fetchInstr = .ok i ∧ i.opcode = d.op)))

/-- 43_jumps.md R162, 60_exceptions.md R261: with `PC` out of bounds the step raises
`OutOfBoundsAddress(PC)`, with `FAULT.pc` the bad target, and the command returns the fault.
(The response of a command stands in `port`, a field of the model's own: log 5.) -/
def Obligations.BadPcFaultsAtTheFetch : Prop :=
  ∀ (s : State) (c : RunCommand), s.port = .running c → s.faulted = false → s.halt = false →
    ¬(0 ≤ s.pc.toInt ∧ s.pc.toInt < s.cfg.memSize) →
    ∃ f : FaultRecord, f = { FaultRecord.empty with
        kind := .outOfBoundsAddress, pc := s.pc, addr := s.pc.toInt } ∧
      step s = .next { s with fault := f, port := .returned (.fault f) }

/-- No step stops the model: every error is taken, and every state has a next state.
(A Machine with no command in progress steps to itself, the model's choice: log 6.) -/
def Obligations.EveryStepAnswersNext : Prop :=
  ∀ s : State, ∃ s', step s = .next s'

/-- Every step keeps the invariant: memory in its one form inside `[0, MEM_SIZE)`, a legal fault record,
`HALT` and a fault never together, no command running once a fault is recorded. -/
def Obligations.EveryStepKeepsTheInvariant : Prop :=
  ∀ s s' : State, s.Inv → step s = .next s' → s'.Inv

/-- A new Machine, and the reset state, meet the invariant. -/
def Obligations.NewMachineMeetsTheInvariant : Prop :=
  State.reset.Inv ∧ ∀ c : Config, c.wf = true → (State.new c).Inv

/-- Every host command keeps the invariant, so every reachable state has it. -/
def Obligations.EveryReachableStateMeetsTheInvariant : Prop :=
  ∀ s : State, s.Reachable → s.Inv

/-- 60_exceptions.md R266, R261 (2, 4): a step that records a fault changes nothing else (`M`, `PC`, `RB`, `HALT`, `IN_Q`,
`OUT_SEQ`, `IN_SLOT`, `OUT_SLOT`); `FAULT.pc` is the `PC` of the faulting instruction, and the command
returns the fault.
(The response of a command stands in `port`, a field of the model's own: log 5.) -/
def Obligations.ErrorsArePrecise : Prop :=
  ∀ s s' : State, s.faulted = false → step s = .next s' → s'.faulted = true →
    s' = { s with fault := s'.fault, port := .returned (.fault s'.fault) } ∧ s'.fault.pc = s.pc

/-- 60_exceptions.md R262: the errors each instruction can raise. A cell at `PC` that does not decode raises
what the decode says, `IllegalWriteMode` only on a class with a write target; a decoded instruction
raises only what the table lists for its class. -/
def Obligations.InstructionsRaiseOnlyTheListedErrors : Prop :=
  ∀ s s' : State, s.faulted = false → step s = .next s' → s'.faulted = true →
    0 ≤ s.pc.toInt → s.pc.toInt < s.cfg.memSize →
    match decodeCell s.cfg.excess (s.mem.read s.pc.toInt.toNat) with
    | .ok d => canRaise d.op s'.fault.kind = true
    | .error e =>
      s'.fault.kind = (Trap.decode e).kind ∧
        (s'.fault.kind = .illegalWriteMode → ∃ op : Opcode, op.writeSlots ≠ [] ∧
          (s.mem.read s.pc.toInt.toNat).toInt.toNat % 100 = op.number)

/-- 60_exceptions.md R268, 46_host_interface.md R224: a recorded fault stays until `reset`. A run command on a
faulted Machine executes nothing, stages nothing and returns the recorded fault; `loadCode` writes memory
and leaves the fault as it is; `reset` clears it.
(The response of a command stands in `port`, a field of the model's own: log 5.) -/
def Obligations.FaultIsStickyUntilReset : Prop :=
  ∀ s : State, s.faulted = true →
    (∀ s', step s = .next s' → s' = { s with port := s'.port } ∧
      (s.isRunning = true → s'.port = .returned (.fault s.fault))) ∧
    (s.isRunning = false →
      (∀ inputs, s.issue (.eval inputs) = .next { s with port := .returned (.fault s.fault) }) ∧
      (∀ x, s.issue (.pipe x) = .next { s with port := .returned (.fault s.fault) } ∧
        s.issue (.consumeSingleInput x) = .next { s with port := .returned (.fault s.fault) }) ∧
      (∀ program s', s.issue (.loadCode program) = .next s' →
        s' = { s with mem := s.mem.writeFrom 0 program }) ∧
      (∃ s', s.issue .reset = .next s' ∧ s'.faulted = false))

/-- 46_host_interface.md R224: a run command on a halted Machine executes no instruction; `eval` and
`consumeSingleInput` return `ok`, `pipe` returns `None`.
(The response of a command stands in `port`, a field of the model's own: log 5.) -/
def Obligations.HaltedMachineExecutesNothing : Prop :=
  ∀ s : State, s.faulted = false → s.halt = true →
    (s.port = .running .eval → step s = .next { s with port := .returned .ok }) ∧
    (s.port = .running .pipe → step s = .next { s with port := .returned .noOutput }) ∧
    (∀ consumed, s.port = .running (.consumeSingleInput consumed) →
      step s = .next { s with port := .returned .ok })

/-- 10_state.md R23: only the halt instruction sets `HALT`, no step clears it, and of the host commands only
`reset` changes it. -/
def Obligations.OnlyHaltSetsAndOnlyResetClearsTheFlag : Prop :=
  (∀ s s' : State, step s = .next s' →
    (s.halt = true → s'.halt = true) ∧
    (s.halt = false → s'.halt = true → s.fetchInstr = .ok .halt)) ∧
  ∀ (s s' : State) (c : HostCommand), s.issue c = .next s' →
    (c = .reset → s'.halt = false) ∧ (c ≠ .reset → s'.halt = s.halt)

/-- 10_state.md R25: only `ARB` writes `RB`, and of the host commands only `reset`. -/
def Obligations.OnlyArbWritesTheRelativeBase : Prop :=
  (∀ s s' : State, step s = .next s' → s'.rb ≠ s.rb → ∃ a, s.fetchInstr = .ok (.arb a)) ∧
  ∀ (s s' : State) (c : HostCommand), s.issue c = .next s' →
    (c = .reset → s'.rb = 0) ∧ (c ≠ .reset → s'.rb = s.rb)

/-- 42_io.md R143, 00_scope.md R5: no step writes `IN_SLOT`, and nothing changes the parameters. -/
def Obligations.NoStepWritesTheStagedInput : Prop :=
  (∀ s s' : State, step s = .next s' → s'.inSlot = s.inSlot ∧ s'.cfg = s.cfg) ∧
  ∀ (s s' : State) (c : HostCommand), s.issue c = .next s' → s'.cfg = s.cfg

/-- 10_state.md R21, R22: after an instruction that completes, `PC` has advanced by `1 + n` exactly, with no
overflow, or holds a jump's target, or is unchanged by `HALT`. -/
def Obligations.PcChangesInThreeWays : Prop :=
  ∀ (s s' : State) (i : Instr), s.Inv → s.fetchInstr = .ok i → s.faulted = false →
    exec i s = .next s' → s'.faulted = false →
    (i = .halt ∧ s'.pc = s.pc) ∨
    (∃ a b x, (i = .jt a b ∧ s.readOperand a = .ok x ∧ x ≠ 0 ∧ s.readOperand b = .ok s'.pc) ∨
      (i = .jf a b ∧ s.readOperand a = .ok x ∧ x = 0 ∧ s.readOperand b = .ok s'.pc)) ∨
    (i ≠ .halt ∧ s'.pc.toInt = s.pc.toInt + 1 + i.opcode.arity)

/-- 46_host_interface.md R222 (phase 6), 20_memory.md R60: a step changes no cell but the one its instruction
stores to. -/
def Obligations.StepStoresOnlyAtTheTarget : Prop :=
  ∀ (s s' : State) (a : Nat), step s = .next s' →
    (∀ i, s.fetchInstr = .ok i → s.storeAddress i ≠ some a) → s'.mem.read a = s.mem.read a

/-- 46_host_interface.md R232: the transitions of `STATUS`. HALTED and FAULTED are terminal under every step.
From READY, the fetch's error or an instruction that raises one leads to FAULTED and nothing else does;
`HALT` leads to HALTED and nothing else does; an instruction other than `HALT` that raises nothing leaves
READY. A `pipe` that returns an output leaves READY. Of the host commands `reset` leads to READY and no
other, `loadCode` among them, changes it. (The command in progress and the response stand in `port`: log 5.) -/
def Obligations.StatusChangesAsTheProtocolSays : Prop :=
  (∀ s s' : State, s.Inv → step s = .next s' →
    (s.status = .halted → s'.status = .halted) ∧ (s.status = .faulted → s'.status = .faulted) ∧
    (s.status = .ready →
      (s'.status = .halted → s.fetchInstr = .ok .halt) ∧
      (s.fetchInstr = .ok .halt → s.isRunning = true → s'.status = .halted) ∧
      (s'.status = .faulted → (∃ t, s.fetchInstr = .error t) ∨
        ∃ i t, s.fetchInstr = .ok i ∧ exec i s = .next (s.raise t)) ∧
      ∀ c, s.port = .running c → s.stopsBefore c = false →
        (∀ t, s.fetchInstr = .error t → s'.status = .faulted) ∧
        (∀ i t, s.fetchInstr = .ok i → exec i s = .next (s.raise t) → s'.status = .faulted) ∧
        (∀ i s₁, s.fetchInstr = .ok i → i ≠ .halt → exec i s = .next s₁ → s₁.fault = s.fault →
          s'.status = .ready)) ∧
    (∀ v, s.port = .running .pipe → s'.port = .returned (.output v) → s'.status = .ready)) ∧
  ∀ (s s' : State) (c : HostCommand), s.issue c = .next s' →
    (c = .reset → s'.status = .ready) ∧ (c ≠ .reset → s'.status = s.status)

/-- 42_io.md R140, R142, 46_host_interface.md R226: a run in step mode neither reads nor changes `IN_Q` and
`OUT_SEQ`, and one in batch mode neither reads nor changes `IN_SLOT` and `OUT_SLOT`: with other values
there, the step does the same. -/
def Obligations.IoModeKeepsToItsOwnChannel : Prop :=
  (∀ (s s' : State) (q o : List Word), s.ioMode = .step → step s = .next s' →
    s'.inQ = s.inQ ∧ s'.outSeq = s.outSeq ∧
      step { s with inQ := q, outSeq := o } = .next { s' with inQ := q, outSeq := o }) ∧
  ∀ (s s' : State) (x y : Word), s.ioMode = .batch → step s = .next s' →
    s'.inSlot = s.inSlot ∧ s'.outSlot = s.outSlot ∧
      step { s with inSlot := x, outSlot := y } = .next { s' with inSlot := x, outSlot := y }

/-- 46_host_interface.md R224, R227: `consumeSingleInput` stops before an instruction exactly when one input is
consumed and the cell at `PC` is in bounds, not negative and of opcode class 3 (its mode digits are not
looked at). Otherwise, with the latch clear or another class at `PC`, it executes the instruction at `PC`, as
`eval` and `pipe` always do: the fetch's error is recorded, or `exec` runs. (The command in progress and the
response stand in `port`, a field of the model's own: log 5.) -/
def Obligations.ConsumeStopsAtTheSecondInput : Prop :=
  ∀ s : State, s.faulted = false → s.halt = false →
    (s.port = .running (.consumeSingleInput true) →
      0 ≤ s.pc.toInt → s.pc.toInt < s.cfg.memSize → 0 ≤ (s.mem.read s.pc.toInt.toNat).toInt →
      (s.mem.read s.pc.toInt.toNat).toInt % 100 = 3 →
      step s = .next { s with port := .returned .ok }) ∧
    ∀ c : RunCommand, s.port = .running c →
      (c = .consumeSingleInput true →
        ¬(0 ≤ s.pc.toInt ∧ s.pc.toInt < s.cfg.memSize ∧ 0 ≤ (s.mem.read s.pc.toInt.toNat).toInt ∧
          (s.mem.read s.pc.toInt.toNat).toInt % 100 = 3)) →
      (∀ t, s.fetchInstr = .error t →
        step s = .next { s with
          fault := t.record s.pc, port := .returned (.fault (t.record s.pc)) }) ∧
      ∀ i s₁, s.fetchInstr = .ok i → exec i s = .next s₁ → step s = .next (s₁.afterInstr c i)

/-! ## Host commands -/

/-- 70_reset_and_hazards.md R298, 46_host_interface.md R224 to R227, R235: a run command that returns does so at
its own stopping point, or with the recorded fault. `eval` returns halted. `pipe` returns halted, or by the
step that executes an `OUT`, whose operand is the value in the response and in `OUT_SLOT`, with `pipe` still
running up to that step. `consumeSingleInput` returns halted, or at an `IN` when one `IN` has completed in
this command: the step that set the latch. (A run under fuel, `none` meaning not yet returned: log 18; the
command in progress stands in `port`: log 5.) -/
def Obligations.RunCommandsReturnAtTheirStops : Prop :=
  ∀ (fuel : Nat) (s s' : State) (r : Response),
    (∀ inputs, s.runCommand fuel (.eval inputs) = some (s', r) →
      (r = .ok ∧ s'.halt = true ∧ s'.faulted = false) ∨ (r = .fault s'.fault ∧ s'.faulted = true)) ∧
    (∀ x, s.runCommand fuel (.pipe x) = some (s', r) →
      (r = .output s'.outSlot ∧ s'.faulted = false ∧
        ∃ k s₁ a, (s.startPipe x).stepTimes k = some s₁ ∧ s₁.port = .running .pipe ∧
          s₁.fetchInstr = .ok (.out a) ∧ s₁.readOperand a = .ok s'.outSlot ∧ step s₁ = .next s') ∨
      (r = .noOutput ∧ s'.halt = true ∧ s'.faulted = false) ∨
      (r = .fault s'.fault ∧ s'.faulted = true)) ∧
    (∀ x, s.runCommand fuel (.consumeSingleInput x) = some (s', r) →
      (r = .ok ∧ s'.halt = true ∧ s'.faulted = false) ∨
      (r = .ok ∧ s'.halt = false ∧ s'.faulted = false ∧ s'.inputAtPc = true ∧
        ∃ k m s₁ s₂ c, (s.startConsume x).stepTimes k = some s₁ ∧
          s₁.port = .running (.consumeSingleInput false) ∧ s₁.fetchInstr = .ok (.inp c) ∧
          step s₁ = .next s₂ ∧ s₂.port = .running (.consumeSingleInput true) ∧
          s₂.stepTimes m = some s') ∨
      (r = .fault s'.fault ∧ s'.faulted = true))

/-- 46_host_interface.md R234: a run under more fuel gives the same result, so running out of fuel is "not yet
returned" and never a result.
(Fuel is the model's: log 18.) -/
def Obligations.MoreFuelGivesTheSameResult : Prop :=
  ∀ (fuel more : Nat) (s : State) (c : HostCommand) (r : State × Response),
    s.runCommand fuel c = some r → s.runCommand (fuel + more) c = some r

/-- 46_host_interface.md R225 to R227: the start of a run command on a Machine with no fault: `eval` replaces
`IN_Q` (absent inputs are the empty sequence) and keeps `OUT_SEQ`; `pipe` and `consumeSingleInput` stage
their input; nothing else changes.
(The response of a command stands in `port`, a field of the model's own: log 5.) -/
def Obligations.RunCommandsStageTheirInputs : Prop :=
  ∀ s : State, s.isRunning = false → s.faulted = false →
    s.issue (.eval none) = .next { s with inQ := [], port := .running .eval } ∧
    (∀ inputs, s.issue (.eval (some inputs)) = .next { s with inQ := inputs, port := .running .eval }) ∧
    (∀ x, s.issue (.pipe x) = .next { s with inSlot := x, port := .running .pipe }) ∧
    (∀ x, s.issue (.consumeSingleInput x) =
      .next { s with inSlot := x, port := .running (.consumeSingleInput false) })

/-- 40_loader.md R106, R107, R109: `loadCode` puts the program in the first cells and changes nothing else. -/
def Obligations.LoadCodeChangesOnlyTheProgramCells : Prop :=
  ∀ (s : State) (program : List Word), s.Inv → s.isRunning = false → program.length ≤ s.cfg.memSize →
    ∃ s', s.issue (.loadCode program) = .next s' ∧
      (∀ a (h : a < program.length), s'.mem.read a = program[a]) ∧
      (∀ a, program.length ≤ a → s'.mem.read a = s.mem.read a) ∧ s' = { s with mem := s'.mem }

/-- 40_loader.md R108: a program longer than memory is refused with `OutOfBoundsAddress(MEM_SIZE)`, whose
outcome has no state in it, so nothing is written and no fault is recorded. -/
def Obligations.OverlongProgramIsRefused : Prop :=
  ∀ (s : State) (program : List Word), s.isRunning = false → s.cfg.memSize < program.length →
    s.issue (.loadCode program) = .fault (.outOfBoundsAddress s.cfg.memSize)

/-- 70_reset_and_hazards.md R290, R291: `reset` puts every piece of state at its reset value and keeps the
parameters; it equals construction, and a second `reset` changes nothing.
(`port`, a field of the model's own, is idle after both: log 5.) -/
def Obligations.ResetEqualsConstruction : Prop :=
  ∀ s : State, s.isRunning = false →
    ∃ s', s.issue .reset = .next s' ∧ s' = State.new s.cfg ∧ s'.issue .reset = .next s' ∧
      (∀ a, s'.mem.read a = 0) ∧ s'.pc = 0 ∧ s'.rb = 0 ∧ s'.halt = false ∧ s'.inQ = [] ∧
      s'.outSeq = [] ∧ s'.inSlot = 0 ∧ s'.outSlot = 0 ∧
      s'.fault = { kind := .none, pc := 0, addr := 0, cell := 0, slot := 0, digit := 0, value := 0 } ∧
      s'.status = .ready

/-- 46_host_interface.md R231: a read port answers the state it names, or `OutOfBoundsAddress` for a cell that
does not exist. -/
def Obligations.ReadPortsAnswerTheState : Prop :=
  ∀ s : State, s.isRunning = false →
    (∀ a : Int, 0 ≤ a → a < s.cfg.memSize → s.readPort (.cell a) = .next (.word (s.mem.read a.toNat))) ∧
    (∀ a : Int, ¬(0 ≤ a ∧ a < s.cfg.memSize) → s.readPort (.cell a) = .fault (.outOfBoundsAddress a)) ∧
    s.readPort .outSeq = .next (.words s.outSeq) ∧ s.readPort .outSlot = .next (.word s.outSlot) ∧
    s.readPort .pc = .next (.word s.pc) ∧ s.readPort .rb = .next (.word s.rb) ∧
    s.readPort .status = .next (.status s.status) ∧ s.readPort .fault = .next (.record s.fault)

/-- 46_host_interface.md R221: no command is taken while a run command is executing (the refusal's name is the
model's own, log 16). -/
def Obligations.NoCommandDuringARun : Prop :=
  ∀ (s : State) (c : HostCommand) (p : ReadPort), s.isRunning = true →
    s.issue c = .refused .busy ∧ s.readPort p = .refused .busy

/-- 60_exceptions.md R273: an action on one Machine changes no other, and does to it what it does to that
Machine alone.
(A host's Machines stand in a list: log 20.) -/
def Obligations.MachinesAreIndependent : Prop :=
  ∀ (sys sys' : System) (k : Nat) (act : State → Host.Outcome State Fault Refusal),
    sys.onMachine k act = .next sys' →
    (∀ j, j ≠ k → sys'[j]? = sys[j]?) ∧ sys'.length = sys.length ∧
      ∃ s s', sys[k]? = some s ∧ act s = .next s' ∧ sys'[k]? = some s'

/-! ## The loader's text, and the assembler -/

/-- 40_loader.md R105: parsing the comma-joined decimal text of a non-empty program gives the program; the
empty program has no round trip. -/
def Obligations.ParseOfStringifyIsTheProgram : Prop :=
  (∀ program : List Word, program ≠ [] → parse (stringify program) = .ok program) ∧
    parse (stringify []) = .error (.parseError 0)

/-- 40_loader.md R101, R102, R104. A text splits at every comma and nowhere else: its tokens hold no comma,
joined by commas they are the text, and there is one more than there are commas. White space is the six
ASCII characters, and trimming takes all of it off both ends of a token and nothing else. `parse` answers the
values of the tokens when every trimmed token is a literal, and otherwise fails with the 0-based position of
the first that is not; an empty token is none. -/
def Obligations.ParseFailsAtTheFirstBadToken : Prop :=
  (∀ text : List Char, (∀ t ∈ splitCommas text, ',' ∉ t) ∧
    List.intercalate [','] (splitCommas text) = text ∧
    (splitCommas text).length = text.count ',' + 1) ∧
  (∀ c : Char, isSpace c = true ↔ c.toNat ∈ [0x20, 0x09, 0x0A, 0x0B, 0x0C, 0x0D]) ∧
  (∀ w t w' : List Char, (∀ c ∈ w, isSpace c = true) → (∀ c ∈ w', isSpace c = true) →
    (∀ c, t.head? = some c → isSpace c = false) → (∀ c, t.getLast? = some c → isSpace c = false) →
    trimToken (w ++ t ++ w') = t) ∧
  readLiteral [] = none ∧
  ∀ text : List Char,
    (∀ vs, parse text = .ok vs ↔
      (splitCommas text).map (fun t => readLiteral (trimToken t)) = vs.map some) ∧
    (∀ k, parse text = .error (.parseError k) ↔
      (∃ t, (splitCommas text)[k]? = some t ∧ readLiteral (trimToken t) = none) ∧
      ∀ j t, j < k → (splitCommas text)[j]? = some t → readLiteral (trimToken t) ≠ none)

/-- 40_loader.md R103: the literal grammar `[+-]?[0-9]+`, read in base 10, with its value in the signed 64-bit
range; anything else is malformed. -/
def Obligations.LiteralIsASignedDecimalInRange : Prop :=
  (∀ (t : List Char) (v : Word), readLiteral t = some v →
    ∃ ds, ds ≠ [] ∧ (∀ c ∈ ds, isDigit c = true) ∧ (t = ds ∨ t = '+' :: ds ∨ t = '-' :: ds)) ∧
  ∀ (n : Nat) (ds : List Char), ds ≠ [] → (∀ c ∈ ds, isDigit c = true) → digitsValue 0 ds = n →
    readLiteral ds = (if (n : Int) ≤ 2 ^ 63 - 1 then some (wrap64 n) else none) ∧
    readLiteral ('+' :: ds) = (if (n : Int) ≤ 2 ^ 63 - 1 then some (wrap64 n) else none) ∧
    readLiteral ('-' :: ds) = (if -2 ^ 63 ≤ -(n : Int) then some (wrap64 (-n)) else none)

/-- 30_encoding.md R86: a line written in the assembler syntax reads back as the same instruction or data
cell. -/
def Obligations.AssemblerReadsWhatItWrites : Prop :=
  ∀ l : AsmLine, readLine l.text = some l
end

