-- ==== Sys2Proof/Laws/State.lean ====
section
/-! SUPPORT. What each update of the state does to each field, so that no proof unfolds a record update. -/

namespace Sys2Proof.Machine

variable (s : State)

@[simp] theorem State.setCell_cfg (a : Nat) (v : Word) : (s.setCell a v).cfg = s.cfg := rfl
@[simp] theorem State.setCell_mem (a : Nat) (v : Word) : (s.setCell a v).mem = s.mem.write a v := rfl
@[simp] theorem State.setCell_pc (a : Nat) (v : Word) : (s.setCell a v).pc = s.pc := rfl
@[simp] theorem State.setCell_rb (a : Nat) (v : Word) : (s.setCell a v).rb = s.rb := rfl
@[simp] theorem State.setCell_halt (a : Nat) (v : Word) : (s.setCell a v).halt = s.halt := rfl
@[simp] theorem State.setCell_inQ (a : Nat) (v : Word) : (s.setCell a v).inQ = s.inQ := rfl
@[simp] theorem State.setCell_outSeq (a : Nat) (v : Word) : (s.setCell a v).outSeq = s.outSeq := rfl
@[simp] theorem State.setCell_inSlot (a : Nat) (v : Word) : (s.setCell a v).inSlot = s.inSlot := rfl
@[simp] theorem State.setCell_outSlot (a : Nat) (v : Word) : (s.setCell a v).outSlot = s.outSlot := rfl
@[simp] theorem State.setCell_fault (a : Nat) (v : Word) : (s.setCell a v).fault = s.fault := rfl
@[simp] theorem State.setCell_port (a : Nat) (v : Word) : (s.setCell a v).port = s.port := rfl
@[simp] theorem State.setCell_ioMode (a : Nat) (v : Word) : (s.setCell a v).ioMode = s.ioMode := rfl
@[simp] theorem State.setCell_isRunning (a : Nat) (v : Word) : (s.setCell a v).isRunning = s.isRunning := rfl
@[simp] theorem State.setCell_faulted (a : Nat) (v : Word) : (s.setCell a v).faulted = s.faulted := rfl

@[simp] theorem State.advance_cfg (k : Nat) : (s.advance k).cfg = s.cfg := rfl
@[simp] theorem State.advance_mem (k : Nat) : (s.advance k).mem = s.mem := rfl
@[simp] theorem State.advance_pc (k : Nat) : (s.advance k).pc = s.pc + BitVec.ofNat 64 k := rfl
@[simp] theorem State.advance_rb (k : Nat) : (s.advance k).rb = s.rb := rfl
@[simp] theorem State.advance_halt (k : Nat) : (s.advance k).halt = s.halt := rfl
@[simp] theorem State.advance_inQ (k : Nat) : (s.advance k).inQ = s.inQ := rfl
@[simp] theorem State.advance_outSeq (k : Nat) : (s.advance k).outSeq = s.outSeq := rfl
@[simp] theorem State.advance_inSlot (k : Nat) : (s.advance k).inSlot = s.inSlot := rfl
@[simp] theorem State.advance_outSlot (k : Nat) : (s.advance k).outSlot = s.outSlot := rfl
@[simp] theorem State.advance_fault (k : Nat) : (s.advance k).fault = s.fault := rfl
@[simp] theorem State.advance_port (k : Nat) : (s.advance k).port = s.port := rfl
@[simp] theorem State.advance_ioMode (k : Nat) : (s.advance k).ioMode = s.ioMode := rfl
@[simp] theorem State.advance_isRunning (k : Nat) : (s.advance k).isRunning = s.isRunning := rfl
@[simp] theorem State.advance_faulted (k : Nat) : (s.advance k).faulted = s.faulted := rfl

@[simp] theorem State.jump_cfg (v : Word) : (s.jump v).cfg = s.cfg := rfl
@[simp] theorem State.jump_mem (v : Word) : (s.jump v).mem = s.mem := rfl
@[simp] theorem State.jump_pc (v : Word) : (s.jump v).pc = v := rfl
@[simp] theorem State.jump_rb (v : Word) : (s.jump v).rb = s.rb := rfl
@[simp] theorem State.jump_halt (v : Word) : (s.jump v).halt = s.halt := rfl
@[simp] theorem State.jump_inQ (v : Word) : (s.jump v).inQ = s.inQ := rfl
@[simp] theorem State.jump_outSeq (v : Word) : (s.jump v).outSeq = s.outSeq := rfl
@[simp] theorem State.jump_inSlot (v : Word) : (s.jump v).inSlot = s.inSlot := rfl
@[simp] theorem State.jump_outSlot (v : Word) : (s.jump v).outSlot = s.outSlot := rfl
@[simp] theorem State.jump_fault (v : Word) : (s.jump v).fault = s.fault := rfl
@[simp] theorem State.jump_port (v : Word) : (s.jump v).port = s.port := rfl
@[simp] theorem State.jump_ioMode (v : Word) : (s.jump v).ioMode = s.ioMode := rfl
@[simp] theorem State.jump_isRunning (v : Word) : (s.jump v).isRunning = s.isRunning := rfl
@[simp] theorem State.jump_faulted (v : Word) : (s.jump v).faulted = s.faulted := rfl

@[simp] theorem State.setRb_cfg (v : Word) : (s.setRb v).cfg = s.cfg := rfl
@[simp] theorem State.setRb_mem (v : Word) : (s.setRb v).mem = s.mem := rfl
@[simp] theorem State.setRb_pc (v : Word) : (s.setRb v).pc = s.pc := rfl
@[simp] theorem State.setRb_rb (v : Word) : (s.setRb v).rb = v := rfl
@[simp] theorem State.setRb_halt (v : Word) : (s.setRb v).halt = s.halt := rfl
@[simp] theorem State.setRb_inQ (v : Word) : (s.setRb v).inQ = s.inQ := rfl
@[simp] theorem State.setRb_outSeq (v : Word) : (s.setRb v).outSeq = s.outSeq := rfl
@[simp] theorem State.setRb_inSlot (v : Word) : (s.setRb v).inSlot = s.inSlot := rfl
@[simp] theorem State.setRb_outSlot (v : Word) : (s.setRb v).outSlot = s.outSlot := rfl
@[simp] theorem State.setRb_fault (v : Word) : (s.setRb v).fault = s.fault := rfl
@[simp] theorem State.setRb_port (v : Word) : (s.setRb v).port = s.port := rfl
@[simp] theorem State.setRb_ioMode (v : Word) : (s.setRb v).ioMode = s.ioMode := rfl
@[simp] theorem State.setRb_isRunning (v : Word) : (s.setRb v).isRunning = s.isRunning := rfl
@[simp] theorem State.setRb_faulted (v : Word) : (s.setRb v).faulted = s.faulted := rfl

@[simp] theorem State.setInQ_cfg (q : List Word) : (s.setInQ q).cfg = s.cfg := rfl
@[simp] theorem State.setInQ_mem (q : List Word) : (s.setInQ q).mem = s.mem := rfl
@[simp] theorem State.setInQ_pc (q : List Word) : (s.setInQ q).pc = s.pc := rfl
@[simp] theorem State.setInQ_rb (q : List Word) : (s.setInQ q).rb = s.rb := rfl
@[simp] theorem State.setInQ_halt (q : List Word) : (s.setInQ q).halt = s.halt := rfl
@[simp] theorem State.setInQ_inQ (q : List Word) : (s.setInQ q).inQ = q := rfl
@[simp] theorem State.setInQ_outSeq (q : List Word) : (s.setInQ q).outSeq = s.outSeq := rfl
@[simp] theorem State.setInQ_inSlot (q : List Word) : (s.setInQ q).inSlot = s.inSlot := rfl
@[simp] theorem State.setInQ_outSlot (q : List Word) : (s.setInQ q).outSlot = s.outSlot := rfl
@[simp] theorem State.setInQ_fault (q : List Word) : (s.setInQ q).fault = s.fault := rfl
@[simp] theorem State.setInQ_port (q : List Word) : (s.setInQ q).port = s.port := rfl
@[simp] theorem State.setInQ_ioMode (q : List Word) : (s.setInQ q).ioMode = s.ioMode := rfl
@[simp] theorem State.setInQ_isRunning (q : List Word) : (s.setInQ q).isRunning = s.isRunning := rfl
@[simp] theorem State.setInQ_faulted (q : List Word) : (s.setInQ q).faulted = s.faulted := rfl

@[simp] theorem State.setHalt_cfg : (s.setHalt).cfg = s.cfg := rfl
@[simp] theorem State.setHalt_mem : (s.setHalt).mem = s.mem := rfl
@[simp] theorem State.setHalt_pc : (s.setHalt).pc = s.pc := rfl
@[simp] theorem State.setHalt_rb : (s.setHalt).rb = s.rb := rfl
@[simp] theorem State.setHalt_halt : (s.setHalt).halt = true := rfl
@[simp] theorem State.setHalt_inQ : (s.setHalt).inQ = s.inQ := rfl
@[simp] theorem State.setHalt_outSeq : (s.setHalt).outSeq = s.outSeq := rfl
@[simp] theorem State.setHalt_inSlot : (s.setHalt).inSlot = s.inSlot := rfl
@[simp] theorem State.setHalt_outSlot : (s.setHalt).outSlot = s.outSlot := rfl
@[simp] theorem State.setHalt_fault : (s.setHalt).fault = s.fault := rfl
@[simp] theorem State.setHalt_port : (s.setHalt).port = s.port := rfl
@[simp] theorem State.setHalt_ioMode : (s.setHalt).ioMode = s.ioMode := rfl
@[simp] theorem State.setHalt_isRunning : (s.setHalt).isRunning = s.isRunning := rfl
@[simp] theorem State.setHalt_faulted : (s.setHalt).faulted = s.faulted := rfl

@[simp] theorem State.raise_cfg (t : Trap) : (s.raise t).cfg = s.cfg := rfl
@[simp] theorem State.raise_mem (t : Trap) : (s.raise t).mem = s.mem := rfl
@[simp] theorem State.raise_pc (t : Trap) : (s.raise t).pc = s.pc := rfl
@[simp] theorem State.raise_rb (t : Trap) : (s.raise t).rb = s.rb := rfl
@[simp] theorem State.raise_halt (t : Trap) : (s.raise t).halt = s.halt := rfl
@[simp] theorem State.raise_inQ (t : Trap) : (s.raise t).inQ = s.inQ := rfl
@[simp] theorem State.raise_outSeq (t : Trap) : (s.raise t).outSeq = s.outSeq := rfl
@[simp] theorem State.raise_inSlot (t : Trap) : (s.raise t).inSlot = s.inSlot := rfl
@[simp] theorem State.raise_outSlot (t : Trap) : (s.raise t).outSlot = s.outSlot := rfl
@[simp] theorem State.raise_fault (t : Trap) : (s.raise t).fault = t.record s.pc := rfl
@[simp] theorem State.raise_port (t : Trap) : (s.raise t).port = s.port := rfl
@[simp] theorem State.raise_ioMode (t : Trap) : (s.raise t).ioMode = s.ioMode := rfl
@[simp] theorem State.raise_isRunning (t : Trap) : (s.raise t).isRunning = s.isRunning := rfl

@[simp] theorem State.respond_cfg (r : Response) : (s.respond r).cfg = s.cfg := rfl
@[simp] theorem State.respond_mem (r : Response) : (s.respond r).mem = s.mem := rfl
@[simp] theorem State.respond_pc (r : Response) : (s.respond r).pc = s.pc := rfl
@[simp] theorem State.respond_rb (r : Response) : (s.respond r).rb = s.rb := rfl
@[simp] theorem State.respond_halt (r : Response) : (s.respond r).halt = s.halt := rfl
@[simp] theorem State.respond_inQ (r : Response) : (s.respond r).inQ = s.inQ := rfl
@[simp] theorem State.respond_outSeq (r : Response) : (s.respond r).outSeq = s.outSeq := rfl
@[simp] theorem State.respond_inSlot (r : Response) : (s.respond r).inSlot = s.inSlot := rfl
@[simp] theorem State.respond_outSlot (r : Response) : (s.respond r).outSlot = s.outSlot := rfl
@[simp] theorem State.respond_fault (r : Response) : (s.respond r).fault = s.fault := rfl
@[simp] theorem State.respond_port (r : Response) : (s.respond r).port = .returned r := rfl
@[simp] theorem State.respond_faulted (r : Response) : (s.respond r).faulted = s.faulted := rfl

@[simp] theorem State.goOn_cfg (c : RunCommand) : (s.goOn c).cfg = s.cfg := rfl
@[simp] theorem State.goOn_mem (c : RunCommand) : (s.goOn c).mem = s.mem := rfl
@[simp] theorem State.goOn_pc (c : RunCommand) : (s.goOn c).pc = s.pc := rfl
@[simp] theorem State.goOn_rb (c : RunCommand) : (s.goOn c).rb = s.rb := rfl
@[simp] theorem State.goOn_halt (c : RunCommand) : (s.goOn c).halt = s.halt := rfl
@[simp] theorem State.goOn_inQ (c : RunCommand) : (s.goOn c).inQ = s.inQ := rfl
@[simp] theorem State.goOn_outSeq (c : RunCommand) : (s.goOn c).outSeq = s.outSeq := rfl
@[simp] theorem State.goOn_inSlot (c : RunCommand) : (s.goOn c).inSlot = s.inSlot := rfl
@[simp] theorem State.goOn_outSlot (c : RunCommand) : (s.goOn c).outSlot = s.outSlot := rfl
@[simp] theorem State.goOn_fault (c : RunCommand) : (s.goOn c).fault = s.fault := rfl
@[simp] theorem State.goOn_port (c : RunCommand) : (s.goOn c).port = .running c := rfl
@[simp] theorem State.goOn_faulted (c : RunCommand) : (s.goOn c).faulted = s.faulted := rfl

@[simp] theorem State.stageInput_cfg (x : Word) : (State.stageInput x s).cfg = s.cfg := rfl
@[simp] theorem State.stageInput_mem (x : Word) : (State.stageInput x s).mem = s.mem := rfl
@[simp] theorem State.stageInput_pc (x : Word) : (State.stageInput x s).pc = s.pc := rfl
@[simp] theorem State.stageInput_rb (x : Word) : (State.stageInput x s).rb = s.rb := rfl
@[simp] theorem State.stageInput_halt (x : Word) : (State.stageInput x s).halt = s.halt := rfl
@[simp] theorem State.stageInput_inQ (x : Word) : (State.stageInput x s).inQ = s.inQ := rfl
@[simp] theorem State.stageInput_outSeq (x : Word) : (State.stageInput x s).outSeq = s.outSeq := rfl
@[simp] theorem State.stageInput_inSlot (x : Word) : (State.stageInput x s).inSlot = x := rfl
@[simp] theorem State.stageInput_outSlot (x : Word) : (State.stageInput x s).outSlot = s.outSlot := rfl
@[simp] theorem State.stageInput_fault (x : Word) : (State.stageInput x s).fault = s.fault := rfl
@[simp] theorem State.stageInput_port (x : Word) : (State.stageInput x s).port = s.port := rfl
@[simp] theorem State.stageInput_ioMode (x : Word) : (State.stageInput x s).ioMode = s.ioMode := rfl
@[simp] theorem State.stageInput_isRunning (x : Word) : (State.stageInput x s).isRunning = s.isRunning := rfl
@[simp] theorem State.stageInput_faulted (x : Word) : (State.stageInput x s).faulted = s.faulted := rfl

/-! ## An output, by the I/O mode -/

@[simp] theorem State.emit_cfg (v : Word) : (s.emit v).cfg = s.cfg := by
  unfold State.emit; split <;> rfl
@[simp] theorem State.emit_mem (v : Word) : (s.emit v).mem = s.mem := by
  unfold State.emit; split <;> rfl
@[simp] theorem State.emit_pc (v : Word) : (s.emit v).pc = s.pc := by
  unfold State.emit; split <;> rfl
@[simp] theorem State.emit_rb (v : Word) : (s.emit v).rb = s.rb := by
  unfold State.emit; split <;> rfl
@[simp] theorem State.emit_halt (v : Word) : (s.emit v).halt = s.halt := by
  unfold State.emit; split <;> rfl
@[simp] theorem State.emit_inQ (v : Word) : (s.emit v).inQ = s.inQ := by
  unfold State.emit; split <;> rfl
@[simp] theorem State.emit_inSlot (v : Word) : (s.emit v).inSlot = s.inSlot := by
  unfold State.emit; split <;> rfl
@[simp] theorem State.emit_fault (v : Word) : (s.emit v).fault = s.fault := by
  unfold State.emit; split <;> rfl
@[simp] theorem State.emit_port (v : Word) : (s.emit v).port = s.port := by
  unfold State.emit; split <;> rfl
@[simp] theorem State.emit_faulted (v : Word) : (s.emit v).faulted = s.faulted := by
  unfold State.emit; split <;> rfl
@[simp] theorem State.emit_ioMode (v : Word) : (s.emit v).ioMode = s.ioMode := by
  unfold State.emit; split <;> rfl

theorem State.emit_batch (v : Word) (h : s.ioMode = .batch) :
    s.emit v = { s with outSeq := s.outSeq ++ [v] } := by simp [State.emit, h]

theorem State.emit_step (v : Word) (h : s.ioMode = .step) :
    s.emit v = { s with outSlot := v } := by simp [State.emit, h]

/-! ## A new Machine -/

@[simp] theorem State.new_cfg (c : Config) : (State.new c).cfg = c := rfl
@[simp] theorem State.new_mem (c : Config) : (State.new c).mem = [] := rfl
@[simp] theorem State.new_pc (c : Config) : (State.new c).pc = 0 := rfl
@[simp] theorem State.new_rb (c : Config) : (State.new c).rb = 0 := rfl
@[simp] theorem State.new_halt (c : Config) : (State.new c).halt = false := rfl
@[simp] theorem State.new_inQ (c : Config) : (State.new c).inQ = [] := rfl
@[simp] theorem State.new_outSeq (c : Config) : (State.new c).outSeq = [] := rfl
@[simp] theorem State.new_inSlot (c : Config) : (State.new c).inSlot = 0 := rfl
@[simp] theorem State.new_outSlot (c : Config) : (State.new c).outSlot = 0 := rfl
@[simp] theorem State.new_fault (c : Config) : (State.new c).fault = FaultRecord.empty := rfl
@[simp] theorem State.new_port (c : Config) : (State.new c).port = .idle := rfl

@[simp] theorem State.new_faulted (c : Config) : (State.new c).faulted = false := rfl

@[simp] theorem State.doReset_eq : s.doReset = State.new s.cfg := rfl

/-! ## Raising -/

@[simp] theorem Trap.record_kind (t : Trap) (pc : Word) : (t.record pc).kind = t.kind := by
  rcases t with (_ | _ | _) | _ | _ | _ <;> rfl

@[simp] theorem Trap.record_pc (t : Trap) (pc : Word) : (t.record pc).pc = pc := by
  rcases t with (_ | _ | _) | _ | _ | _ <;> rfl

theorem Trap.kind_ne_none (t : Trap) : t.kind ≠ .none := by
  rcases t with (_ | _ | _) | _ | _ | _ <;> simp [Trap.kind]

@[simp] theorem State.raise_faulted (t : Trap) : (s.raise t).faulted = true := by
  simp [State.faulted, Trap.kind_ne_none]

theorem State.faulted_eq_false_iff : s.faulted = false ↔ s.fault.kind = .none := by
  simp [State.faulted]

end Sys2Proof.Machine
end

