-- ==== Sys2Proof/Laws/Memory.lean ====
section
/-! SUPPORT. Reading after writing, and that every memory operation keeps the one form. -/

namespace Sys2Proof.Machine

@[simp] theorem Memory.read_nil (a : Nat) : Memory.read [] a = 0 := rfl

theorem Memory.read_cons (b : Nat) (v : Word) (m : Memory) (a : Nat) :
    Memory.read ((b, v) :: m) a = if a = b then v else Memory.read m a := rfl

theorem Memory.wfFrom_cons (lo hi a : Nat) (v : Word) (m : Memory) :
    Memory.wfFrom lo hi ((a, v) :: m) = true ↔
      lo ≤ a ∧ a < hi ∧ v ≠ Memory.unlisted ∧ Memory.wfFrom (a + 1) hi m = true := by
  simp only [Memory.wfFrom, Bool.and_eq_true, decide_eq_true_eq, and_assoc]

theorem Memory.wfFrom_mono {lo lo' hi : Nat} {m : Memory} (h : Memory.wfFrom lo hi m = true)
    (hl : lo' ≤ lo) : Memory.wfFrom lo' hi m = true := by
  cases m with
  | nil => rfl
  | cons e m =>
    obtain ⟨a, v⟩ := e
    rw [Memory.wfFrom_cons] at *
    exact ⟨by omega, h.2⟩

/-- Below the first address a memory in the one form lists nothing. -/
theorem Memory.read_of_lt {lo hi : Nat} {m : Memory} (h : Memory.wfFrom lo hi m = true) {a : Nat}
    (ha : a < lo) : m.read a = Memory.unlisted := by
  induction m generalizing lo with
  | nil => rfl
  | cons e m ih =>
    obtain ⟨b, v⟩ := e
    rw [Memory.wfFrom_cons] at h
    rw [Memory.read_cons, if_neg (by omega)]
    exact ih h.2.2.2 (by omega)

theorem Memory.read_write_other (m : Memory) {a b : Nat} (v : Word) (h : b ≠ a) :
    (m.write a v).read b = m.read b := by
  induction m with
  | nil => simp only [Memory.write]; split <;> simp [Memory.read_cons, h]
  | cons e m ih =>
    obtain ⟨c, w⟩ := e
    simp only [Memory.write]
    split_ifs with h1 h2 h2 h3
    · rfl
    · simp [Memory.read_cons, h]
    · subst h2; simp [Memory.read_cons, h]
    · subst h2; simp [Memory.read_cons, h]
    · simp [Memory.read_cons, ih]

theorem Memory.read_write_same_from {lo hi : Nat} {m : Memory} (hw : Memory.wfFrom lo hi m = true)
    (a : Nat) (v : Word) : (m.write a v).read a = v := by
  induction m generalizing lo with
  | nil =>
    simp only [Memory.write]
    split_ifs with h
    · exact h.symm
    · simp [Memory.read_cons]
  | cons e m ih =>
    obtain ⟨c, w⟩ := e
    rw [Memory.wfFrom_cons] at hw
    simp only [Memory.write]
    split_ifs with h1 h2 h2 h3
    · rw [Memory.read_cons, if_neg (by omega), Memory.read_of_lt hw.2.2.2 (by omega), h2]
    · simp [Memory.read_cons]
    · subst h2; rw [Memory.read_of_lt hw.2.2.2 (by omega), h3]
    · simp [Memory.read_cons]
    · rw [Memory.read_cons, if_neg h2]; exact ih hw.2.2.2

theorem Memory.read_write_same {size : Nat} {m : Memory} (hw : m.wf size = true) (a : Nat) (v : Word) :
    (m.write a v).read a = v := Memory.read_write_same_from hw a v

theorem Memory.write_wfFrom {lo hi : Nat} {m : Memory} (hw : Memory.wfFrom lo hi m = true) {a : Nat}
    (v : Word) (hl : lo ≤ a) (hh : a < hi) : Memory.wfFrom lo hi (m.write a v) = true := by
  induction m generalizing lo with
  | nil =>
    simp only [Memory.write]
    split_ifs with h
    · rfl
    · rw [Memory.wfFrom_cons]; exact ⟨hl, hh, h, rfl⟩
  | cons e m ih =>
    obtain ⟨c, w⟩ := e
    rw [Memory.wfFrom_cons] at hw
    simp only [Memory.write]
    split_ifs with h1 h2 h2 h3
    · rw [Memory.wfFrom_cons]; exact hw
    · rw [Memory.wfFrom_cons, Memory.wfFrom_cons]
      exact ⟨hl, hh, h2, by omega, hw.2⟩
    · exact Memory.wfFrom_mono hw.2.2.2 (by omega)
    · rw [Memory.wfFrom_cons]; subst h2; exact ⟨hl, hh, h3, hw.2.2.2⟩
    · rw [Memory.wfFrom_cons]; exact ⟨hw.1, hw.2.1, hw.2.2.1, ih hw.2.2.2 (by omega)⟩

/-- A write inside memory keeps the one form. -/
theorem Memory.write_wf {size : Nat} {m : Memory} (hw : m.wf size = true) {a : Nat} (v : Word)
    (ha : a < size) : (m.write a v).wf size = true := Memory.write_wfFrom hw v (Nat.zero_le a) ha

/-- Writing a sequence of cells that fits inside memory keeps the one form. -/
theorem Memory.writeFrom_wf {size : Nat} {vs : List Word} : ∀ {m : Memory} {a : Nat},
    m.wf size = true → a + vs.length ≤ size → (m.writeFrom a vs).wf size = true := by
  induction vs with
  | nil => intro m a hw _; exact hw
  | cons v vs ih =>
    intro m a hw ha
    simp only [List.length_cons] at ha
    exact ih (Memory.write_wf hw v (by omega)) (by omega)

theorem Memory.read_writeFrom_before {vs : List Word} : ∀ {m : Memory} {a b : Nat},
    b < a → (m.writeFrom a vs).read b = m.read b := by
  induction vs with
  | nil => intros; rfl
  | cons v vs ih =>
    intro m a b h
    rw [Memory.writeFrom, ih (by omega), Memory.read_write_other m v (by omega)]

theorem Memory.nil_wf (size : Nat) : Memory.wf [] size = true := rfl

end Sys2Proof.Machine
end

