-- ==== Sys2Proof/Laws/Ops.lean ====
section
/-! SUPPORT. One lemma per shared operation that says everything it can do. -/

namespace Sys2Proof.Machine

/-! ## Sequencing phases -/

theorem bind_eq_ok {ε α β : Type} {x : Except ε α} {f : α → Except ε β} {r : β} :
    (x >>= f) = .ok r ↔ ∃ a, x = .ok a ∧ f a = .ok r := by
  cases x <;> simp [bind, Except.bind]

theorem bind_eq_error {ε α β : Type} {x : Except ε α} {f : α → Except ε β} {e : ε} :
    (x >>= f) = .error e ↔ x = .error e ∨ ∃ a, x = .ok a ∧ f a = .error e := by
  cases x <;> simp [bind, Except.bind]

@[simp] theorem ok_bind {ε α β : Type} (a : α) (f : α → Except ε β) :
    ((Except.ok a : Except ε α) >>= f) = f a := rfl

@[simp] theorem error_bind {ε α β : Type} (e : ε) (f : α → Except ε β) :
    ((Except.error e : Except ε α) >>= f) = .error e := rfl

/-! ## The signed 64-bit range -/

theorem fits64_iff (v : Int) :
    fits64 v = true ↔ -9223372036854775808 ≤ v ∧ v ≤ 9223372036854775807 := by simp [fits64]

theorem toInt_range (w : Word) : -9223372036854775808 ≤ w.toInt ∧ w.toInt ≤ 9223372036854775807 := by
  have h1 := BitVec.le_toInt w
  have h2 := BitVec.toInt_lt (x := w)
  norm_num at h1 h2
  omega

@[simp] theorem fits64_toInt (w : Word) : fits64 w.toInt = true := (fits64_iff _).2 (toInt_range w)

theorem wrap64_toInt_of_fits {v : Int} (h : fits64 v = true) : (wrap64 v).toInt = v := by
  rw [fits64_iff] at h
  rw [wrap64, BitVec.toInt_ofInt, Int.bmod_eq_of_le] <;> norm_num <;> omega

@[simp] theorem wrap64_toInt (w : Word) : wrap64 w.toInt = w := BitVec.ofInt_toInt

/-! ## `Arith` -/

theorem arith_of_fits {c : Config} {v : Int} (h : fits64 v = true) : arith c v = .ok (wrap64 v) := by
  simp [arith, h]

theorem arith_of_wrap {c : Config} (v : Int) (h : c.overflow = .wrap) : arith c v = .ok (wrap64 v) := by
  simp [arith, h]

theorem arith_of_overflow {c : Config} {v : Int} (h : fits64 v = false) (hp : c.overflow = .fault) :
    arith c v = .error (.arithmeticOverflow v) := by simp [arith, h, hp]

theorem arith_ok {c : Config} {v : Int} {r : Word} (h : arith c v = .ok r) : r = wrap64 v := by
  unfold arith at h
  split at h
  · simpa using h.symm
  · split at h <;> simp at h
    exact h.symm

theorem arith_error {c : Config} {v : Int} {t : Trap} (h : arith c v = .error t) :
    t = .arithmeticOverflow v ∧ fits64 v = false ∧ c.overflow = .fault := by
  unfold arith at h
  split at h
  · simp at h
  · rename_i hf
    split at h <;> simp at h
    rename_i hp
    exact ⟨h.symm, by simpa using hf, hp⟩

/-! ## Access -/

theorem inBounds_iff (c : Config) (a : Int) : inBounds c a = true ↔ 0 ≤ a ∧ a < (c.memSize : Int) := by
  simp [inBounds]

/-- `MemRead` as the bounds of R56 write it. -/
theorem State.memRead_eq (s : State) (a : Int) :
    s.memRead a = if 0 ≤ a ∧ a < (s.cfg.memSize : Int) then .ok (s.mem.read a.toNat)
      else .error (.outOfBoundsAddress a) := by
  simp only [State.memRead, inBounds, decide_eq_true_eq]

/-- The check of a write address as the bounds of R56 write it. -/
theorem State.checkAddress_eq (s : State) (a : Int) :
    s.checkAddress a = if 0 ≤ a ∧ a < (s.cfg.memSize : Int) then .ok a.toNat
      else .error (.outOfBoundsAddress a) := by
  simp only [State.checkAddress, inBounds, decide_eq_true_eq]

theorem State.memRead_ok {s : State} {a : Int} {v : Word} :
    s.memRead a = .ok v ↔ inBounds s.cfg a = true ∧ v = s.mem.read a.toNat := by
  cases h : inBounds s.cfg a <;> simp only [State.memRead, h] <;> constructor <;> rintro ⟨⟩ <;> simp_all

theorem State.memRead_error {s : State} {a : Int} {t : Trap} :
    s.memRead a = .error t ↔ inBounds s.cfg a = false ∧ t = .outOfBoundsAddress a := by
  cases h : inBounds s.cfg a <;> simp only [State.memRead, h] <;> constructor <;> rintro ⟨⟩ <;> simp_all

theorem State.checkAddress_ok {s : State} {a : Int} {t : Nat} :
    s.checkAddress a = .ok t ↔ inBounds s.cfg a = true ∧ t = a.toNat := by
  cases h : inBounds s.cfg a <;> simp only [State.checkAddress, h] <;> constructor <;> rintro ⟨⟩ <;> simp_all

theorem State.checkAddress_error {s : State} {a : Int} {t : Trap} :
    s.checkAddress a = .error t ↔ inBounds s.cfg a = false ∧ t = .outOfBoundsAddress a := by
  cases h : inBounds s.cfg a <;> simp only [State.checkAddress, h] <;> constructor <;> rintro ⟨⟩ <;> simp_all

/-- A read operand that resolves to an error is out of bounds. -/
theorem State.readOperand_error {s : State} {o : Operand} {t : Trap} (h : s.readOperand o = .error t) :
    ∃ a, t = .outOfBoundsAddress a ∧ inBounds s.cfg a = false := by
  unfold State.readOperand at h
  split at h
  · rw [State.memRead_error] at h; exact ⟨_, h.2, h.1⟩
  · simp at h
  · rw [State.memRead_error] at h; exact ⟨_, h.2, h.1⟩

/-- A write address that resolves is inside memory. -/
theorem State.writeAddress_ok {s : State} {i t : Nat} {o : Operand} (h : s.writeAddress i o = .ok t) :
    t < s.cfg.memSize := by
  unfold State.writeAddress at h
  split at h
  · rw [State.checkAddress_ok, inBounds_iff] at h; omega
  · simp at h
  · rw [State.checkAddress_ok, inBounds_iff] at h; omega

/-- A write address of an argument that can be a target fails only out of bounds. -/
theorem State.writeAddress_error {s : State} {i : Nat} {o : Operand} {t : Trap}
    (ho : o.canBeTarget = true) (h : s.writeAddress i o = .error t) :
    ∃ a, t = .outOfBoundsAddress a ∧ inBounds s.cfg a = false := by
  unfold State.writeAddress at h
  split at h
  · rw [State.checkAddress_error] at h; exact ⟨_, h.2, h.1⟩
  · rename_i hm; simp [Operand.canBeTarget, hm] at ho
  · rw [State.checkAddress_error] at h; exact ⟨_, h.2, h.1⟩

theorem State.readInput_ok {s : State} {v : Word} {q : List Word} (h : s.readInput = .ok (v, q)) :
    (s.ioMode = .batch ∧ s.inQ = v :: q) ∨ (s.ioMode = .step ∧ v = s.inSlot ∧ q = s.inQ) := by
  unfold State.readInput at h
  split at h
  · rename_i hm
    split at h <;> simp at h
    rename_i hq
    exact .inl ⟨hm, by rw [hq, h.1, h.2]⟩
  · rename_i hm
    simp at h
    exact .inr ⟨hm, h.1.symm, h.2.symm⟩

theorem State.readInput_error {s : State} {t : Trap} (h : s.readInput = .error t) :
    t = .inputExhausted ∧ s.ioMode = .batch ∧ s.inQ = [] := by
  unfold State.readInput at h
  split at h
  · rename_i hm
    split at h <;> simp at h
    rename_i hq
    exact ⟨h.symm, hm, hq⟩
  · simp at h

/-! ## The instruction shapes -/

theorem State.binaryToCell_ok {s s' : State} {a b c : Operand} {f : Word → Word → Except Trap Word} :
    s.binaryToCell a b c f = .ok s' ↔
      ∃ x y t r, s.readOperand a = .ok x ∧ s.readOperand b = .ok y ∧ s.writeAddress 3 c = .ok t ∧
        f x y = .ok r ∧ s' = (s.setCell t r).advance 4 := by
  unfold State.binaryToCell
  simp only [bind_eq_ok, Except.ok.injEq]
  constructor
  · rintro ⟨x, hx, y, hy, t, ht, r, hr, rfl⟩; exact ⟨x, y, t, r, hx, hy, ht, hr, rfl⟩
  · rintro ⟨x, y, t, r, hx, hy, ht, hr, rfl⟩; exact ⟨x, hx, y, hy, t, ht, r, hr, rfl⟩

theorem State.binaryToCell_error {s : State} {a b c : Operand} {f : Word → Word → Except Trap Word}
    {e : Trap} (h : s.binaryToCell a b c f = .error e) :
    s.readOperand a = .error e ∨ s.readOperand b = .error e ∨ s.writeAddress 3 c = .error e ∨
      ∃ x y, f x y = .error e := by
  unfold State.binaryToCell at h
  simp only [bind_eq_error] at h
  rcases h with h | ⟨x, -, h | ⟨y, -, h | ⟨t, -, h | ⟨r, -, h⟩⟩⟩⟩
  · exact .inl h
  · exact .inr (.inl h)
  · exact .inr (.inr (.inl h))
  · exact .inr (.inr (.inr ⟨x, y, h⟩))
  · simp at h

theorem State.jumpWhen_ok {s s' : State} {a b : Operand} {p : Word → Bool} :
    s.jumpWhen a b p = .ok s' ↔
      ∃ x y, s.readOperand a = .ok x ∧ s.readOperand b = .ok y ∧
        s' = if p x then s.jump y else s.advance 3 := by
  unfold State.jumpWhen
  simp only [bind_eq_ok, Except.ok.injEq]
  constructor
  · rintro ⟨x, hx, y, hy, rfl⟩; exact ⟨x, y, hx, hy, rfl⟩
  · rintro ⟨x, y, hx, hy, rfl⟩; exact ⟨x, hx, y, hy, rfl⟩

theorem State.jumpWhen_error {s : State} {a b : Operand} {p : Word → Bool} {e : Trap}
    (h : s.jumpWhen a b p = .error e) : s.readOperand a = .error e ∨ s.readOperand b = .error e := by
  unfold State.jumpWhen at h
  simp only [bind_eq_error] at h
  rcases h with h | ⟨x, -, h | ⟨y, -, h⟩⟩
  · exact .inl h
  · exact .inr h
  · simp at h

/-! ## The end of an instruction -/

@[simp] theorem State.settle_ok (s s' : State) : s.settle (.ok s') = .next s' := rfl

@[simp] theorem State.settle_error (s : State) (t : Trap) : s.settle (.error t) = .next (s.raise t) := rfl

/-- An instruction ends in its committed state or with its error raised. -/
theorem State.settle_next {s s' : State} {r : Except Trap State} (h : s.settle r = .next s') :
    r = .ok s' ∨ ∃ t, r = .error t ∧ s' = s.raise t := by
  cases r with
  | ok a => simp at h; exact .inl (by rw [h])
  | error t => simp at h; exact .inr ⟨t, rfl, h.symm⟩

end Sys2Proof.Machine
end

