-- ==== Sys2Proof/Laws/Decode.lean ====
section
/-! SUPPORT. The opcode map and the mode digits are inverse to each other, and what each check of the
decoder answers. -/

namespace Sys2Proof

open Machine

@[simp] theorem Opcode.ofNumber_number (op : Opcode) : Opcode.ofNumber op.number = some op := by
  cases op <;> rfl

theorem Opcode.ofNumber_some {n : Nat} {op : Opcode} (h : Opcode.ofNumber n = some op) :
    n = op.number := by
  unfold Opcode.ofNumber at h
  split at h <;> simp at h <;> subst h <;> rfl

theorem Opcode.number_lt (op : Opcode) : op.number < 100 := by cases op <;> decide

theorem Opcode.arity_le (op : Opcode) : op.arity ≤ 3 := by cases op <;> decide

@[simp] theorem Mode.ofDigit_digit (m : Mode) : Mode.ofDigit m.digit = some m := by cases m <;> rfl

theorem Mode.digit_le (m : Mode) : m.digit ≤ 2 := by cases m <;> decide

theorem Mode.ofDigit_some {n : Nat} {m : Mode} (h : Mode.ofDigit n = some m) : n = m.digit := by
  unfold Mode.ofDigit at h
  split at h <;> simp at h <;> subst h <;> rfl

theorem Mode.ofDigit_none_iff {n : Nat} : Mode.ofDigit n = none ↔ 3 ≤ n := by
  match n with
  | 0 => simp [Mode.ofDigit]
  | 1 => simp [Mode.ofDigit]
  | 2 => simp [Mode.ofDigit]
  | n + 3 => simp [Mode.ofDigit]

theorem digit_lt (v k : Nat) : digit v k < 10 := Nat.mod_lt _ (by decide)

/-- A decoded list of modes has one mode per argument, and its digits are legal. -/
theorem decodeModes_ok {cell : Word} {v : Nat} : ∀ {n i : Nat} {ms : List Mode},
    decodeModes cell v i n = .ok ms → ms.length = n ∧ ∀ k (hk : k < ms.length),
      digit v (1 + (i + k)) = (ms[k]).digit := by
  intro n
  induction n with
  | zero => intro i ms h; simp [decodeModes] at h; subst h; simp
  | succ n ih =>
    intro i ms h
    simp only [decodeModes] at h
    split at h
    · simp at h
    · rename_i m hm
      cases hd : decodeModes cell v (i + 1) n with
      | error e => rw [hd] at h; simp [bind, Except.bind] at h
      | ok ms' =>
        rw [hd] at h
        simp [bind, Except.bind] at h
        subst h
        obtain ⟨hl, hk⟩ := ih hd
        refine ⟨by simp [hl], ?_⟩
        intro k hk'
        cases k with
        | zero => simpa using Mode.ofDigit_some hm
        | succ k =>
          have := hk k (by simpa using hk')
          simpa [Nat.add_assoc, Nat.add_comm 1 k] using this

/-- The modes that fail do so at the first illegal digit. -/
theorem decodeModes_error {cell : Word} {v : Nat} : ∀ {n i : Nat} {e : DecodeError},
    decodeModes cell v i n = .error e → ∃ j, i ≤ j ∧ j < i + n ∧ 3 ≤ digit v (1 + j) ∧
      (∀ k, i ≤ k → k < j → digit v (1 + k) ≤ 2) ∧
      e = .invalidAddressingMode cell j (digit v (1 + j)) := by
  intro n
  induction n with
  | zero => intro i e h; simp [decodeModes] at h
  | succ n ih =>
    intro i e h
    simp only [decodeModes] at h
    split at h
    · rename_i hm
      simp at h
      exact ⟨i, le_refl i, by omega, Mode.ofDigit_none_iff.1 hm, fun k _ _ => by omega, h.symm⟩
    · rename_i m hm
      cases hd : decodeModes cell v (i + 1) n with
      | ok ms => rw [hd] at h; simp [bind, Except.bind] at h
      | error e' =>
        rw [hd] at h
        simp [bind, Except.bind] at h
        subst h
        obtain ⟨j, h1, h2, h3, h4, h5⟩ := ih hd
        refine ⟨j, by omega, by omega, h3, ?_, h5⟩
        intro k hk1 hk2
        by_cases hki : k = i
        · subst hki; rw [Mode.ofDigit_some hm]; exact Mode.digit_le m
        · exact h4 k (by omega) hk2

/-- Legal digits decode. -/
theorem decodeModes_of_legal {cell : Word} {v : Nat} : ∀ {n i : Nat} {ms : List Mode},
    ms.length = n → (∀ k (hk : k < ms.length), digit v (1 + (i + k)) = (ms[k]).digit) →
      decodeModes cell v i n = .ok ms := by
  intro n
  induction n with
  | zero => intro i ms h _; simp at h; subst h; rfl
  | succ n ih =>
    intro i ms hl hk
    cases ms with
    | nil => simp at hl
    | cons m ms =>
      have h0 := hk 0 (by simp)
      have ht := ih (i := i + 1) (ms := ms) (by simpa using hl) (by
        intro k hk'
        have := hk (k + 1) (by simpa using hk')
        simpa [Nat.add_assoc, Nat.add_comm 1 k] using this)
      simp only [Nat.add_zero, List.getElem_cons_zero] at h0
      simp [decodeModes, h0, ht, bind, Except.bind]

/-- The slot the search answers is one of those it may, and every slot before it has digit 0. -/
theorem firstExcessSlot_spec (v : Nat) : ∀ (fuel j : Nat),
    j ≤ firstExcessSlot v fuel j ∧ firstExcessSlot v fuel j ≤ j + fuel ∧
      ∀ k, j ≤ k → k < firstExcessSlot v fuel j → digit v (1 + k) = 0 := by
  intro fuel
  induction fuel with
  | zero => intro j; simp only [firstExcessSlot]; exact ⟨le_refl j, le_refl j, fun k _ _ => by omega⟩
  | succ fuel ih =>
    intro j
    simp only [firstExcessSlot]
    split
    · exact ⟨le_refl j, by omega, fun k _ _ => by omega⟩
    · rename_i h
      simp only [ne_eq, not_not] at h
      obtain ⟨h1, h2, h3⟩ := ih (j + 1)
      refine ⟨by omega, by omega, fun k hk1 hk2 => ?_⟩
      by_cases hkj : k = j
      · subst hkj; exact h
      · exact h3 k (by omega) hk2

/-- The excess slot of arity `n <= 3` is `n + 1` to 17. -/
theorem excessSlot_range {n : Nat} (v : Nat) (hn : n ≤ 3) :
    n + 1 ≤ excessSlot v n ∧ excessSlot v n ≤ 17 := by
  obtain ⟨h1, h2, -⟩ := firstExcessSlot_spec v (16 - n) (n + 1)
  exact ⟨h1, by unfold excessSlot; omega⟩

/-- The excess check answers nothing but the excess-digit error. -/
theorem checkExcess_error {p : ExcessPolicy} {cell : Word} {v n : Nat} {e : DecodeError}
    (h : checkExcess p cell v n = .error e) :
    p = .fault ∧ v / 10 ^ (2 + n) ≠ 0 ∧
      e = .invalidAddressingMode cell (excessSlot v n) (digit v (1 + excessSlot v n)) := by
  unfold checkExcess at h
  split at h
  · simp at h
  · split at h
    · simp at h
    · rename_i hv; simp at h; exact ⟨rfl, hv, h.symm⟩

/-- The write-mode check answers nothing but the illegal-write error of one of the slots. -/
theorem checkWriteModes_error {cell : Word} {ms : List Mode} : ∀ {slots : List Nat} {e : DecodeError},
    checkWriteModes cell ms slots = .error e →
      ∃ i ∈ slots, ms[i - 1]? = some .immediate ∧ e = .illegalWriteMode cell i := by
  intro slots
  induction slots with
  | nil => intro e h; simp [checkWriteModes] at h
  | cons i rest ih =>
    intro e h
    simp only [checkWriteModes] at h
    split at h
    · rename_i hi; simp at h; exact ⟨i, by simp, hi, h.symm⟩
    · obtain ⟨j, hj, h1, h2⟩ := ih h; exact ⟨j, by simp [hj], h1, h2⟩

theorem checkWriteModes_ok {cell : Word} {ms : List Mode} : ∀ {slots : List Nat},
    checkWriteModes cell ms slots = .ok () ↔ ∀ i ∈ slots, ms[i - 1]? ≠ some .immediate := by
  intro slots
  induction slots with
  | nil => simp [checkWriteModes]
  | cons i rest ih =>
    simp only [checkWriteModes]
    split
    · rename_i hi; simp [hi]
    · rename_i hi; rw [ih]; simp [hi]

/-- What a successful decode of a cell says: the cell is not negative, its low two digits are the opcode's
number, the digits above are its modes, no excess digit is set under the `fault` policy, and no write
target is Immediate. -/
theorem decodeCell_ok {p : ExcessPolicy} {cell : Word} {d : DecodedCell}
    (h : decodeCell p cell = .ok d) :
    0 ≤ cell.toInt ∧ cell.toInt.toNat % 100 = d.op.number ∧ d.modes.length = d.op.arity ∧
      (∀ k (hk : k < d.modes.length), digit cell.toInt.toNat (2 + k) = (d.modes[k]).digit) ∧
      (p = .fault → cell.toInt.toNat / 10 ^ (2 + d.op.arity) = 0) ∧
      ∀ i ∈ d.op.writeSlots, d.modes[i - 1]? ≠ some .immediate := by
  unfold decodeCell at h
  split at h
  · simp at h
  · rename_i hneg
    split at h
    · simp at h
    · rename_i op hop
      simp only [bind_eq_ok, Except.ok.injEq] at h
      obtain ⟨ms, hm, u, hx, u', hw, rfl⟩ := h
      obtain ⟨hl, hk⟩ := decodeModes_ok hm
      refine ⟨by omega, Opcode.ofNumber_some hop, hl, ?_, ?_, checkWriteModes_ok.1 hw⟩
      · intro k hk'
        have := hk k hk'
        rw [← this]; congr 1; omega
      · intro hp
        subst hp
        simp only [checkExcess] at hx
        split at hx
        · assumption
        · simp at hx

/-- What a failed decode of a cell says: the error of the first failing check. -/
theorem decodeCell_error {p : ExcessPolicy} {cell : Word} {e : DecodeError}
    (h : decodeCell p cell = .error e) :
    (e = .invalidOpcode cell ∧
      (cell.toInt < 0 ∨ Opcode.ofNumber (cell.toInt.toNat % 100) = none)) ∨
    ∃ op, 0 ≤ cell.toInt ∧ Opcode.ofNumber (cell.toInt.toNat % 100) = some op ∧
      ((∃ j, 1 ≤ j ∧ j ≤ op.arity ∧
          e = .invalidAddressingMode cell j (digit cell.toInt.toNat (1 + j))) ∨
        e = .invalidAddressingMode cell (excessSlot cell.toInt.toNat op.arity)
          (digit cell.toInt.toNat (1 + excessSlot cell.toInt.toNat op.arity)) ∨
        ∃ i ∈ op.writeSlots, e = .illegalWriteMode cell i) := by
  unfold decodeCell at h
  split at h
  · rename_i hneg
    simp only [Except.error.injEq] at h
    exact .inl ⟨h.symm, .inl hneg⟩
  · rename_i hneg
    split at h
    · rename_i hop
      simp only [Except.error.injEq] at h
      exact .inl ⟨h.symm, .inr hop⟩
    · rename_i op hop
      refine .inr ⟨op, by omega, hop, ?_⟩
      simp only [bind_eq_error] at h
      rcases h with h | ⟨ms, -, h | ⟨u, -, h | ⟨u', -, h⟩⟩⟩
      · obtain ⟨j, h1, h2, -, -, rfl⟩ := decodeModes_error h
        exact .inl ⟨j, h1, by omega, rfl⟩
      · exact .inr (.inl (checkExcess_error h).2.2)
      · obtain ⟨i, hi, -, rfl⟩ := checkWriteModes_error h
        exact .inr (.inr ⟨i, hi, rfl⟩)
      · simp at h

/-- Every write slot is 1 or 3. -/
theorem Opcode.writeSlots_mem {op : Opcode} {i : Nat} (h : i ∈ op.writeSlots) : i = 1 ∨ i = 3 := by
  cases op <;> simp [Opcode.writeSlots] at h <;> omega

/-- The instruction of a decoded cell has that class. -/
@[simp] theorem DecodedCell.toInstr_opcode (d : DecodedCell) (raw : List Word) :
    (d.toInstr raw).opcode = d.op := by
  cases d with
  | mk op ms => cases op <;> rfl

/-- Legal digits decode, up to the write-mode check. -/
theorem decodeCell_of_legal {p : ExcessPolicy} {cell : Word} {op : Opcode} {ms : List Mode} (h0 : 0 ≤ cell.toInt)
    (hop : cell.toInt.toNat % 100 = op.number) (hl : ms.length = op.arity)
    (hm : ∀ k (hk : k < ms.length), digit cell.toInt.toNat (2 + k) = (ms[k]).digit)
    (hx : p = .fault → cell.toInt.toNat / 10 ^ (2 + op.arity) = 0) :
    decodeCell p cell = (checkWriteModes cell ms op.writeSlots).map fun _ => { op := op, modes := ms } := by
  have hx' : checkExcess p cell cell.toInt.toNat op.arity = .ok () := by
    cases p with
    | ignore => rfl
    | fault => simp only [checkExcess]; rw [if_pos (hx rfl)]
  have hmodes : decodeModes cell cell.toInt.toNat 1 op.arity = .ok ms :=
    decodeModes_of_legal hl fun k hk => by rw [← hm k hk]; congr 1; omega
  unfold decodeCell
  rw [if_neg (by omega), hop, Opcode.ofNumber_number]
  simp only [hmodes, hx', ok_bind]
  cases checkWriteModes cell ms op.writeSlots <;> rfl

/-- With legal mode digits, the decode is its last two checks. -/
theorem decodeCell_modes_ok {p : ExcessPolicy} {cell : Word} {op : Opcode} {ms : List Mode} (h0 : 0 ≤ cell.toInt)
    (hop : Opcode.ofNumber (cell.toInt.toNat % 100) = some op) 
    (hmodes : decodeModes cell cell.toInt.toNat 1 op.arity = .ok ms) :
    decodeCell p cell = (do checkExcess p cell cell.toInt.toNat op.arity; checkWriteModes cell ms op.writeSlots; .ok { op := op, modes := ms }) := by
  unfold decodeCell
  rw [if_neg (by omega), hop]
  simp only [hmodes, ok_bind]

/-- Mode digits of at most 2 decode. -/
theorem modes_of_legal {cell : Word} {v : Nat} : ∀ {n i : Nat}, (∀ k, i ≤ k → k < i + n → digit v (1 + k) ≤ 2) →
   ∃ ms, decodeModes cell v i n = .ok ms := by
  intro n i h
  cases hd : decodeModes cell v i n with
  | ok ms => exact ⟨ms, rfl⟩
  | error e => obtain ⟨j, h1, h2, h3, -, -⟩ := decodeModes_error hd; have := h j h1 h2; omega

/-- The first nonzero digit within reach is the slot the search answers. -/
theorem firstExcessSlot_eq (v : Nat) : ∀ (fuel j t : Nat), j ≤ t → t ≤ j + fuel → digit v (1 + t) ≠ 0 → (∀ k, j ≤ k → k < t → digit v (1 + k) = 0) → firstExcessSlot v fuel j = t := by
  intro fuel j t h1 h2 h3 h4
  obtain ⟨a, b, c⟩ := firstExcessSlot_spec v fuel j
  have : ∀ fuel j, digit v (1 + firstExcessSlot v fuel j) ≠ 0 ∨ firstExcessSlot v fuel j = j + fuel := by
    intro fuel
    induction fuel with
    | zero => intro j; right; rfl
    | succ n ih => 
      intro j; simp only [firstExcessSlot]; split
      · left; assumption
      · rcases ih (j+1) with h | h
        · exact .inl h
        · right; omega
  rcases Nat.lt_trichotomy (firstExcessSlot v fuel j) t with h | h | h
  · have := h4 _ a h; rcases this' : this with _
    rcases ‹∀ fuel j, _› fuel j with g | g
    · exact absurd this g
    · omega
  · exact h
  · exact absurd (c t h1 h) h3

/-- A small number is its own cell. -/
theorem toInt_ofNat_small {n : Nat} (h : n < 100000) : (BitVec.ofNat 64 n).toInt = n := by
  rw [BitVec.toInt_ofNat', Int.bmod_def]; norm_num; split <;> omega

/-- The decode of the cell an instruction is encoded with. -/
theorem decodeCell_encode (p : ExcessPolicy) (i : Instr) (h : i.wf = true) :
    decodeCell p (BitVec.ofNat 64 i.cellNumber) = .ok { op := i.opcode, modes := i.operands.map Operand.mode } := by
  have hlt : i.cellNumber < 100000 := by
    have hd : ∀ k, i.modeDigit k ≤ 2 := by
      intro k; unfold Instr.modeDigit; split
      · exact Mode.digit_le _
      · omega
    have := hd 1; have := hd 2; have := hd 3; have := i.opcode.number_lt
    unfold Instr.cellNumber; omega
  have hc := toInt_ofNat_small hlt
  have hw : checkWriteModes (BitVec.ofNat 64 i.cellNumber) (i.operands.map Operand.mode) i.opcode.writeSlots = .ok () := by
    rw [checkWriteModes_ok]
    cases i <;> simp [Instr.opcode, Instr.operands, Opcode.writeSlots] <;>
      simpa [Instr.wf, Operand.canBeTarget] using h
  rw [decodeCell_of_legal (op := i.opcode) (ms := i.operands.map Operand.mode) (by omega) _ _ _ _, hw]; rfl
  · rw [hc]; simp only [Int.toNat_natCast]; unfold Instr.cellNumber; cases i <;> simp only [Instr.opcode, Opcode.number] <;> omega
  · cases i <;> rfl
  · rw [hc]; simp only [Int.toNat_natCast]
    have key : ∀ m : Operand, m.mode.digit ≤ 2 := fun m => Mode.digit_le m.mode
    cases i with
    | add a b c =>
      have := key a
      have := key b
      have := key c
      intro k hk
      simp only [Instr.operands, List.map, List.length] at hk
      interval_cases k <;> simp [digit, Instr.cellNumber, Instr.opcode, Opcode.number, Instr.modeDigit, Instr.operands] <;> omega
    | mul a b c =>
      have := key a
      have := key b
      have := key c
      intro k hk
      simp only [Instr.operands, List.map, List.length] at hk
      interval_cases k <;> simp [digit, Instr.cellNumber, Instr.opcode, Opcode.number, Instr.modeDigit, Instr.operands] <;> omega
    | inp a =>
      have := key a
      intro k hk
      simp only [Instr.operands, List.map, List.length] at hk
      interval_cases k
      simp [digit, Instr.cellNumber, Instr.opcode, Opcode.number, Instr.modeDigit, Instr.operands]
      omega
    | out a =>
      have := key a
      intro k hk
      simp only [Instr.operands, List.map, List.length] at hk
      interval_cases k
      simp [digit, Instr.cellNumber, Instr.opcode, Opcode.number, Instr.modeDigit, Instr.operands]
      omega
    | jt a b =>
      have := key a
      have := key b
      intro k hk
      simp only [Instr.operands, List.map, List.length] at hk
      interval_cases k <;> simp [digit, Instr.cellNumber, Instr.opcode, Opcode.number, Instr.modeDigit, Instr.operands] <;> omega
    | jf a b =>
      have := key a
      have := key b
      intro k hk
      simp only [Instr.operands, List.map, List.length] at hk
      interval_cases k <;> simp [digit, Instr.cellNumber, Instr.opcode, Opcode.number, Instr.modeDigit, Instr.operands] <;> omega
    | lt a b c =>
      have := key a
      have := key b
      have := key c
      intro k hk
      simp only [Instr.operands, List.map, List.length] at hk
      interval_cases k <;> simp [digit, Instr.cellNumber, Instr.opcode, Opcode.number, Instr.modeDigit, Instr.operands] <;> omega
    | eq a b c =>
      have := key a
      have := key b
      have := key c
      intro k hk
      simp only [Instr.operands, List.map, List.length] at hk
      interval_cases k <;> simp [digit, Instr.cellNumber, Instr.opcode, Opcode.number, Instr.modeDigit, Instr.operands] <;> omega
    | arb a =>
      have := key a
      intro k hk
      simp only [Instr.operands, List.map, List.length] at hk
      interval_cases k
      simp [digit, Instr.cellNumber, Instr.opcode, Opcode.number, Instr.modeDigit, Instr.operands]
      omega
    | halt =>
      intro k hk
      simp [Instr.operands] at hk
  · intro _; rw [hc]; simp only [Int.toNat_natCast]
    have key : ∀ m : Operand, m.mode.digit ≤ 2 := fun m => Mode.digit_le m.mode
    cases i with
    | add a b c =>
      have := key a
      have := key b
      have := key c
      simp [Instr.cellNumber, Instr.opcode, Opcode.number, Opcode.arity, Instr.modeDigit, Instr.operands]; omega
    | mul a b c =>
      have := key a
      have := key b
      have := key c
      simp [Instr.cellNumber, Instr.opcode, Opcode.number, Opcode.arity, Instr.modeDigit, Instr.operands]; omega
    | inp a =>
      have := key a
      simp [Instr.cellNumber, Instr.opcode, Opcode.number, Opcode.arity, Instr.modeDigit, Instr.operands]; omega
    | out a =>
      have := key a
      simp [Instr.cellNumber, Instr.opcode, Opcode.number, Opcode.arity, Instr.modeDigit, Instr.operands]; omega
    | jt a b =>
      have := key a
      have := key b
      simp [Instr.cellNumber, Instr.opcode, Opcode.number, Opcode.arity, Instr.modeDigit, Instr.operands]; omega
    | jf a b =>
      have := key a
      have := key b
      simp [Instr.cellNumber, Instr.opcode, Opcode.number, Opcode.arity, Instr.modeDigit, Instr.operands]; omega
    | lt a b c =>
      have := key a
      have := key b
      have := key c
      simp [Instr.cellNumber, Instr.opcode, Opcode.number, Opcode.arity, Instr.modeDigit, Instr.operands]; omega
    | eq a b c =>
      have := key a
      have := key b
      have := key c
      simp [Instr.cellNumber, Instr.opcode, Opcode.number, Opcode.arity, Instr.modeDigit, Instr.operands]; omega
    | arb a =>
      have := key a
      simp [Instr.cellNumber, Instr.opcode, Opcode.number, Opcode.arity, Instr.modeDigit, Instr.operands]; omega
    | halt =>
      simp [Instr.cellNumber, Instr.opcode, Opcode.number, Opcode.arity, Instr.modeDigit, Instr.operands]

/-- An instruction is rebuilt from its class, its modes and its argument cells. -/
theorem toInstr_of (i : Instr) : ({ op := i.opcode, modes := i.operands.map Operand.mode } : DecodedCell).toInstr (i.operands.map Operand.raw) = i := by
  cases i <;> rfl

end Sys2Proof
end

