-- ==== Sys2Proof/Laws/Exec.lean ====
section
/-! SUPPORT. What each instruction can do: one inversion lemma per meaning (if it answers `next s'`, then one
of these cases), and that it always answers a next state. -/

namespace Sys2Proof.Machine

/-- An instruction's phases as a committed state or an error: what `exec` settles. -/
def phases (i : Instr) (s : State) : Except Trap State :=
  match i with
  | .add a b c => s.binaryToCell a b c fun x y => arith s.cfg (x.toInt + y.toInt)
  | .mul a b c => s.binaryToCell a b c fun x y => arith s.cfg (x.toInt * y.toInt)
  | .inp c => do
    let t ← s.writeAddress 1 c
    let (v, rest) ← s.readInput
    .ok (((s.setCell t v).setInQ rest).advance 2)
  | .out a => do
    let x ← s.readOperand a
    .ok ((s.emit x).advance 2)
  | .jt a b => s.jumpWhen a b fun x => decide (x.toInt ≠ 0)
  | .jf a b => s.jumpWhen a b fun x => decide (x.toInt = 0)
  | .lt a b c => s.binaryToCell a b c fun x y => .ok (boolWord (decide (x.toInt < y.toInt)))
  | .eq a b c => s.binaryToCell a b c fun x y => .ok (boolWord (decide (x.toInt = y.toInt)))
  | .arb a => do
    let x ← s.readOperand a
    let r ← arith s.cfg (s.rb.toInt + x.toInt)
    .ok ((s.setRb r).advance 2)
  | .halt => .ok s.setHalt

/-- `exec` is the settling of the phases. -/
theorem exec_eq_settle (i : Instr) (s : State) : exec i s = s.settle (phases i s) := by
  cases i <;> rfl

/-- Every instruction answers a next state: its committed state, or its error raised. -/
theorem exec_cases (i : Instr) (s : State) :
    (∃ s', phases i s = .ok s' ∧ exec i s = .next s') ∨
      ∃ t, phases i s = .error t ∧ exec i s = .next (s.raise t) := by
  rw [exec_eq_settle]
  cases h : phases i s with
  | ok s' => exact .inl ⟨s', rfl, rfl⟩
  | error t => exact .inr ⟨t, rfl, rfl⟩

theorem exec_next {i : Instr} {s s' : State} (h : exec i s = .next s') :
    phases i s = .ok s' ∨ ∃ t, phases i s = .error t ∧ s' = s.raise t := by
  rw [exec_eq_settle] at h
  exact State.settle_next h

/-- A committed `ADD`. -/
theorem phases_add_ok {a b c : Operand} {s s' : State} (h : phases (.add a b c) s = .ok s') :
    ∃ x y t r, s.readOperand a = .ok x ∧ s.readOperand b = .ok y ∧ s.writeAddress 3 c = .ok t ∧
      arith s.cfg (x.toInt + y.toInt) = .ok r ∧ s' = (s.setCell t r).advance 4 :=
  State.binaryToCell_ok.1 h

/-- A committed `MUL`. -/
theorem phases_mul_ok {a b c : Operand} {s s' : State} (h : phases (.mul a b c) s = .ok s') :
    ∃ x y t r, s.readOperand a = .ok x ∧ s.readOperand b = .ok y ∧ s.writeAddress 3 c = .ok t ∧
      arith s.cfg (x.toInt * y.toInt) = .ok r ∧ s' = (s.setCell t r).advance 4 :=
  State.binaryToCell_ok.1 h

/-- A committed `IN`. -/
theorem phases_inp_ok {c : Operand} {s s' : State} (h : phases (.inp c) s = .ok s') :
    ∃ t v q, s.writeAddress 1 c = .ok t ∧ s.readInput = .ok (v, q) ∧
      s' = ((s.setCell t v).setInQ q).advance 2 := by
  simp only [phases, bind_eq_ok, Except.ok.injEq] at h
  obtain ⟨t, ht, ⟨v, q⟩, hv, rfl⟩ := h
  exact ⟨t, v, q, ht, hv, rfl⟩

/-- A committed `OUT`. -/
theorem phases_out_ok {a : Operand} {s s' : State} (h : phases (.out a) s = .ok s') :
    ∃ x, s.readOperand a = .ok x ∧ s' = (s.emit x).advance 2 := by
  simp only [phases, bind_eq_ok, Except.ok.injEq] at h
  obtain ⟨x, hx, rfl⟩ := h
  exact ⟨x, hx, rfl⟩

/-- A committed `JT`. -/
theorem phases_jt_ok {a b : Operand} {s s' : State} (h : phases (.jt a b) s = .ok s') :
    ∃ x y, s.readOperand a = .ok x ∧ s.readOperand b = .ok y ∧
      s' = if decide (x.toInt ≠ 0) then s.jump y else s.advance 3 :=
  State.jumpWhen_ok.1 h

/-- A committed `JF`. -/
theorem phases_jf_ok {a b : Operand} {s s' : State} (h : phases (.jf a b) s = .ok s') :
    ∃ x y, s.readOperand a = .ok x ∧ s.readOperand b = .ok y ∧
      s' = if decide (x.toInt = 0) then s.jump y else s.advance 3 :=
  State.jumpWhen_ok.1 h

/-- A committed `LT`. -/
theorem phases_lt_ok {a b c : Operand} {s s' : State} (h : phases (.lt a b c) s = .ok s') :
    ∃ x y t, s.readOperand a = .ok x ∧ s.readOperand b = .ok y ∧ s.writeAddress 3 c = .ok t ∧
      s' = (s.setCell t (boolWord (decide (x.toInt < y.toInt)))).advance 4 := by
  obtain ⟨x, y, t, r, hx, hy, ht, hr, rfl⟩ := State.binaryToCell_ok.1 h
  simp only [Except.ok.injEq] at hr
  exact ⟨x, y, t, hx, hy, ht, by rw [hr]⟩

/-- A committed `EQ`. -/
theorem phases_eq_ok {a b c : Operand} {s s' : State} (h : phases (.eq a b c) s = .ok s') :
    ∃ x y t, s.readOperand a = .ok x ∧ s.readOperand b = .ok y ∧ s.writeAddress 3 c = .ok t ∧
      s' = (s.setCell t (boolWord (decide (x.toInt = y.toInt)))).advance 4 := by
  obtain ⟨x, y, t, r, hx, hy, ht, hr, rfl⟩ := State.binaryToCell_ok.1 h
  simp only [Except.ok.injEq] at hr
  exact ⟨x, y, t, hx, hy, ht, by rw [hr]⟩

/-- A committed `ARB`. -/
theorem phases_arb_ok {a : Operand} {s s' : State} (h : phases (.arb a) s = .ok s') :
    ∃ x r, s.readOperand a = .ok x ∧ arith s.cfg (s.rb.toInt + x.toInt) = .ok r ∧
      s' = (s.setRb r).advance 2 := by
  simp only [phases, bind_eq_ok, Except.ok.injEq] at h
  obtain ⟨x, hx, r, hr, rfl⟩ := h
  exact ⟨x, r, hx, hr, rfl⟩

/-- A committed `HALT`. -/
theorem phases_halt_ok {s s' : State} (h : phases .halt s = .ok s') : s' = s.setHalt := by
  simpa [phases] using h.symm

/-- What a committed instruction leaves: memory changes at most in the cell it stores to, and every field
but `PC` changes only by the instruction that the spec says writes it. -/
theorem phases_frame {i : Instr} {s s' : State} (h : phases i s = .ok s') :
    s'.cfg = s.cfg ∧ s'.inSlot = s.inSlot ∧ s'.fault = s.fault ∧ s'.port = s.port ∧
      (s'.mem = s.mem ∨ ∃ t v, s.storeAddress i = some t ∧ s'.mem = s.mem.write t v) := by
  cases i with
  | add a b c =>
    obtain ⟨x, y, t, r, -, -, ht, -, rfl⟩ := phases_add_ok h
    exact ⟨rfl, rfl, rfl, rfl, .inr ⟨t, r, by simp [State.storeAddress, ht, Except.toOption], rfl⟩⟩
  | mul a b c =>
    obtain ⟨x, y, t, r, -, -, ht, -, rfl⟩ := phases_mul_ok h
    exact ⟨rfl, rfl, rfl, rfl, .inr ⟨t, r, by simp [State.storeAddress, ht, Except.toOption], rfl⟩⟩
  | inp c =>
    obtain ⟨t, v, q, ht, -, rfl⟩ := phases_inp_ok h
    exact ⟨rfl, rfl, rfl, rfl, .inr ⟨t, v, by simp [State.storeAddress, ht, Except.toOption], rfl⟩⟩
  | out a =>
    obtain ⟨x, -, rfl⟩ := phases_out_ok h
    simp
  | jt a b =>
    obtain ⟨x, y, -, -, rfl⟩ := phases_jt_ok h
    split <;> simp
  | jf a b =>
    obtain ⟨x, y, -, -, rfl⟩ := phases_jf_ok h
    split <;> simp
  | lt a b c =>
    obtain ⟨x, y, t, -, -, ht, rfl⟩ := phases_lt_ok h
    exact ⟨rfl, rfl, rfl, rfl, .inr ⟨t, _, by simp [State.storeAddress, ht, Except.toOption], rfl⟩⟩
  | eq a b c =>
    obtain ⟨x, y, t, -, -, ht, rfl⟩ := phases_eq_ok h
    exact ⟨rfl, rfl, rfl, rfl, .inr ⟨t, _, by simp [State.storeAddress, ht, Except.toOption], rfl⟩⟩
  | arb a =>
    obtain ⟨x, r, -, -, rfl⟩ := phases_arb_ok h
    simp
  | halt =>
    obtain rfl := phases_halt_ok h
    simp

/-- The store address of a committed store is inside memory. -/
theorem storeAddress_lt {i : Instr} {s : State} {t : Nat} (h : s.storeAddress i = some t) :
    t < s.cfg.memSize := by
  have key : ∀ k o, (s.writeAddress k o).toOption = some t → t < s.cfg.memSize := by
    intro k o ho
    cases hw : s.writeAddress k o with
    | ok a => rw [hw] at ho; simp [Except.toOption] at ho; subst ho; exact State.writeAddress_ok hw
    | error e => rw [hw] at ho; simp [Except.toOption] at ho
  cases i <;> simp only [State.storeAddress] at h <;> first | exact key _ _ h | simp at h

end Sys2Proof.Machine
end

