-- ==== Sys2Proof/Laws/Step.lean ====
section
/-! SUPPORT. What a step can do: one inversion lemma for the step, and what its parts leave unchanged. -/

namespace Sys2Proof.Machine

/-! ## The run loop's own updates change only the port -/

theorem State.afterOutcome_port_only (s : State) (c : RunCommand) (o : StepOutcome) :
    s.afterOutcome c o = { s with port := (s.afterOutcome c o).port } := by
  cases c <;> cases o <;> rfl

/-- After an instruction the loop changes only the port. -/
theorem State.afterInstr_port_only (s : State) (c : RunCommand) (i : Instr) :
    s.afterInstr c i = { s with port := (s.afterInstr c i).port } := by
  unfold State.afterInstr
  split
  · rfl
  · exact State.afterOutcome_port_only s c _

theorem State.afterInstr_of_faulted {s : State} (c : RunCommand) (i : Instr) (h : s.faulted = true) :
    s.afterInstr c i = s.respond (.fault s.fault) := by simp [State.afterInstr, h]

theorem State.afterInstr_of_not_faulted {s : State} (c : RunCommand) (i : Instr)
    (h : s.faulted = false) : s.afterInstr c i = s.afterOutcome c (s.stepOutcome i) := by
  simp [State.afterInstr, h]

/-! ## The step -/

/-- One pass of the loop, whichever way it goes. -/
theorem State.loopPass_cases (s : State) (c : RunCommand) :
    (s.faulted = true ∧ s.loopPass c = .next (s.respond (.fault s.fault))) ∨
    (s.faulted = false ∧ s.halt = true ∧ s.loopPass c = .next (s.respond c.haltedResponse)) ∨
    (s.faulted = false ∧ s.halt = false ∧ s.stopsBefore c = true ∧
      s.loopPass c = .next (s.respond .ok)) ∨
    (s.faulted = false ∧ s.halt = false ∧ s.stopsBefore c = false ∧
      ((∃ t, s.fetchInstr = .error t ∧ s.loopPass c = .next (s.failFetch t)) ∨
        ∃ i s', s.fetchInstr = .ok i ∧ exec i s = .next s' ∧
          s.loopPass c = .next (s'.afterInstr c i))) := by
  unfold State.loopPass
  cases hf : s.faulted
  · cases hh : s.halt
    · cases hb : s.stopsBefore c
      · refine .inr (.inr (.inr ⟨rfl, rfl, rfl, ?_⟩))
        cases hi : s.fetchInstr with
        | error t => exact .inl ⟨t, rfl, by simp [State.execute, hi]⟩
        | ok i =>
          obtain ⟨s', -, he⟩ | ⟨t, -, he⟩ := exec_cases i s
          · exact .inr ⟨i, s', rfl, he, by simp [State.execute, hi, he]⟩
          · exact .inr ⟨i, _, rfl, he, by simp [State.execute, hi, he]⟩
      · exact .inr (.inr (.inl ⟨rfl, rfl, rfl, by simp⟩))
    · exact .inr (.inl ⟨rfl, rfl, by simp⟩)
  · exact .inl ⟨rfl, by simp⟩

theorem step_of_running {s : State} {c : RunCommand} (h : s.port = .running c) :
    step s = s.loopPass c := by simp [step, State.runStep, h]

/-- A step of a Machine with no command in progress leaves it as it is. -/
theorem step_of_not_running {s : State} (h : s.isRunning = false) : step s = .next s := by
  unfold State.isRunning at h
  unfold step State.runStep
  split at h
  · simp at h
  · rename_i hp; simp [hp]
  · rename_i hp; simp [hp]

/-- Everything a step can do. -/
theorem step_cases {s s' : State} (h : step s = .next s') :
    (s.isRunning = false ∧ s' = s) ∨
    ∃ c, s.port = .running c ∧
      ((s.faulted = true ∧ s' = s.respond (.fault s.fault)) ∨
       (s.faulted = false ∧ s.halt = true ∧ s' = s.respond c.haltedResponse) ∨
       (s.faulted = false ∧ s.halt = false ∧ s.stopsBefore c = true ∧ s' = s.respond .ok) ∨
       (s.faulted = false ∧ s.halt = false ∧ s.stopsBefore c = false ∧
        ((∃ t, s.fetchInstr = .error t ∧ s' = s.failFetch t) ∨
         ∃ i s₁, s.fetchInstr = .ok i ∧ exec i s = .next s₁ ∧ s' = s₁.afterInstr c i))) := by
  cases hr : s.isRunning
  · rw [step_of_not_running hr] at h
    simp only [Host.Outcome.next.injEq] at h
    exact .inl ⟨rfl, h.symm⟩
  · right
    have hc : ∃ c, s.port = .running c := by
      unfold State.isRunning at hr
      split at hr
      · rename_i c hp; exact ⟨c, hp⟩
      · simp at hr
      · simp at hr
    obtain ⟨c, hc⟩ := hc
    refine ⟨c, hc, ?_⟩
    rw [step_of_running hc] at h
    rcases s.loopPass_cases c with ⟨hf, hl⟩ | ⟨hf, hh, hl⟩ | ⟨hf, hh, hb, hl⟩ | ⟨hf, hh, hb, hl⟩
    · rw [hl] at h; simp only [Host.Outcome.next.injEq] at h; exact .inl ⟨hf, h.symm⟩
    · rw [hl] at h; simp only [Host.Outcome.next.injEq] at h; exact .inr (.inl ⟨hf, hh, h.symm⟩)
    · rw [hl] at h; simp only [Host.Outcome.next.injEq] at h
      exact .inr (.inr (.inl ⟨hf, hh, hb, h.symm⟩))
    · refine .inr (.inr (.inr ⟨hf, hh, hb, ?_⟩))
      obtain ⟨t, ht, hl⟩ | ⟨i, s₁, hi, he, hl⟩ := hl
      · rw [hl] at h; simp only [Host.Outcome.next.injEq] at h; exact .inl ⟨t, ht, h.symm⟩
      · rw [hl] at h; simp only [Host.Outcome.next.injEq] at h; exact .inr ⟨i, s₁, hi, he, h.symm⟩

/-- Everything a step of a running command with no recorded fault can do. -/
theorem step_cases_of_running {s s' : State} {c : RunCommand} (hp : s.port = .running c)
    (hf : s.faulted = false) (h : step s = .next s') :
    (s.halt = true ∧ s' = s.respond c.haltedResponse) ∨
    (s.halt = false ∧ s.stopsBefore c = true ∧ s' = s.respond .ok) ∨
    (s.halt = false ∧ s.stopsBefore c = false ∧
      ((∃ t, s.fetchInstr = .error t ∧ s' = s.failFetch t) ∨
        ∃ i s₁, s.fetchInstr = .ok i ∧ exec i s = .next s₁ ∧ s' = s₁.afterInstr c i)) := by
  rcases step_cases h with ⟨hr, -⟩ | ⟨c', hp', ⟨hx, -⟩ | ⟨-, hx, rfl⟩ | ⟨-, hx, hb, rfl⟩ | ⟨-, hx, hb, hh⟩⟩
  · simp [State.isRunning, hp] at hr
  · simp [hf] at hx
  · rw [hp] at hp'; cases hp'; exact .inl ⟨hx, rfl⟩
  · rw [hp] at hp'; cases hp'; exact .inr (.inl ⟨hx, hb, rfl⟩)
  · rw [hp] at hp'; cases hp'; exact .inr (.inr ⟨hx, hb, hh⟩)

/-! ## The fetch -/

/-- What a fetched instruction is: the decode of the cell at `PC`, with its argument cells. -/
theorem State.fetchInstr_ok {s : State} {i : Instr} (h : s.fetchInstr = .ok i) :
    ∃ d raw, inBounds s.cfg s.pc.toInt = true ∧
      decodeCell s.cfg.excess (s.mem.read s.pc.toInt.toNat) = .ok d ∧
      s.fetchArgs 1 d.op.arity = .ok raw ∧ i = d.toInstr raw := by
  simp only [State.fetchInstr, bind_eq_ok, Except.ok.injEq] at h
  obtain ⟨cell, hc, d, hd, raw, hr, rfl⟩ := h
  obtain ⟨hb, rfl⟩ := State.memRead_ok.1 hc
  unfold State.decodeAt at hd
  split at hd
  · rename_i d' hd'
    simp only [Except.ok.injEq] at hd
    subst hd
    exact ⟨_, raw, hb, hd', hr, rfl⟩
  · simp at hd

/-- The argument fetch: every cell in bounds and read, or the first one out of bounds raised. -/
theorem State.fetchArgs_ok {s : State} : ∀ {n i : Nat} {raw : List Word},
    s.fetchArgs i n = .ok raw → raw.length = n ∧ ∀ k (hk : k < raw.length),
      inBounds s.cfg (s.pc.toInt + ((i + k : Nat) : Int)) = true ∧
        raw[k] = s.mem.read (s.pc.toInt + ((i + k : Nat) : Int)).toNat := by
  intro n
  induction n with
  | zero => intro i raw h; simp [State.fetchArgs] at h; subst h; simp
  | succ n ih =>
    intro i raw h
    simp only [State.fetchArgs, bind_eq_ok, Except.ok.injEq] at h
    obtain ⟨v, hv, vs, hvs, rfl⟩ := h
    obtain ⟨hb, rfl⟩ := State.memRead_ok.1 hv
    obtain ⟨hl, hk⟩ := ih hvs
    refine ⟨by simp [hl], ?_⟩
    intro k hk'
    cases k with
    | zero => exact ⟨by simpa using hb, by simp⟩
    | succ k =>
      have := hk k (by simpa using hk')
      have e : i + 1 + k = i + (k + 1) := by omega
      rw [e] at this
      simpa using this

theorem State.fetchArgs_error {s : State} : ∀ {n i : Nat} {t : Trap},
    s.fetchArgs i n = .error t → ∃ k, k < n ∧
      inBounds s.cfg (s.pc.toInt + ((i + k : Nat) : Int)) = false ∧
      t = .outOfBoundsAddress (s.pc.toInt + ((i + k : Nat) : Int)) := by
  intro n
  induction n with
  | zero => intro i t h; simp [State.fetchArgs] at h
  | succ n ih =>
    intro i t h
    simp only [State.fetchArgs, bind_eq_error] at h
    rcases h with h | ⟨v, -, h | ⟨vs, -, h⟩⟩
    · obtain ⟨hb, rfl⟩ := State.memRead_error.1 h
      exact ⟨0, by omega, by simpa using hb, by simp⟩
    · obtain ⟨k, hk, hb, rfl⟩ := ih h
      refine ⟨k + 1, by omega, ?_, ?_⟩
      · rw [← hb]; congr 2; push_cast; omega
      · congr 2; push_cast; omega
    · simp at h

/-- An error of the fetch: the cell at `PC` out of bounds, the decode, or an argument out of bounds. -/
theorem State.fetchInstr_error {s : State} {t : Trap} (h : s.fetchInstr = .error t) :
    (inBounds s.cfg s.pc.toInt = false ∧ t = .outOfBoundsAddress s.pc.toInt) ∨
    (∃ e, inBounds s.cfg s.pc.toInt = true ∧
      decodeCell s.cfg.excess (s.mem.read s.pc.toInt.toNat) = .error e ∧ t = .decode e) ∨
    ∃ d, inBounds s.cfg s.pc.toInt = true ∧
      decodeCell s.cfg.excess (s.mem.read s.pc.toInt.toNat) = .ok d ∧
      s.fetchArgs 1 d.op.arity = .error t := by
  simp only [State.fetchInstr, bind_eq_error] at h
  rcases h with h | ⟨cell, hc, h | ⟨d, hd, h | ⟨raw, -, h⟩⟩⟩
  · exact .inl (State.memRead_error.1 h)
  · obtain ⟨hb, rfl⟩ := State.memRead_ok.1 hc
    unfold State.decodeAt at h
    split at h
    · simp at h
    · rename_i e he
      simp only [Except.error.injEq] at h
      exact .inr (.inl ⟨e, hb, he, h.symm⟩)
  · obtain ⟨hb, rfl⟩ := State.memRead_ok.1 hc
    unfold State.decodeAt at hd
    split at hd
    · rename_i d' hd'
      simp only [Except.ok.injEq] at hd
      subst hd
      exact .inr (.inr ⟨_, hb, hd', h⟩)
    · simp at hd
  · simp at h

/-- The read of the cell at an in-bounds `PC`. -/
theorem memRead_pc {s : State} (h : 0 ≤ s.pc.toInt ∧ s.pc.toInt < s.cfg.memSize) : s.memRead s.pc.toInt = .ok (s.mem.read s.pc.toInt.toNat) := by
  rw [State.memRead_ok, inBounds_iff]; exact ⟨h, rfl⟩

/-- The argument fetch inside memory reads the cells after `PC`. -/
theorem fetchArgs_of_lt {s : State} (h0 : 0 ≤ s.pc.toInt) : ∀ n i : Nat, s.pc.toInt + ((i + n : Nat):Int) ≤ s.cfg.memSize → 
   s.fetchArgs i n = .ok ((List.range n).map fun k => s.mem.read (s.pc.toInt.toNat + (i + k))) := by
  intro n
  induction n with
  | zero => intro i _; rfl
  | succ n ih =>
    intro i h
    have h1 : s.memRead (s.pc.toInt + i) = .ok (s.mem.read (s.pc.toInt.toNat + i)) := by
      rw [State.memRead_ok, inBounds_iff]; push_cast at h; refine ⟨by omega, ?_⟩; congr 1; omega
    rw [State.fetchArgs, h1, ok_bind, ih (i+1) (by push_cast at *; omega), ok_bind, List.range_succ_eq_map]
    simp [Function.comp_def, Nat.add_assoc, Nat.add_comm 1]

/-- An argument fetch that runs past the end of memory raises at its first cell there. -/
theorem fetchArgs_of_ge {s : State} (h0 : 0 ≤ s.pc.toInt) : ∀ n i : Nat, s.pc.toInt + i ≤ s.cfg.memSize → (s.cfg.memSize:Int) < s.pc.toInt + ((i + n : Nat):Int) → 
   s.fetchArgs i n = .error (.outOfBoundsAddress s.cfg.memSize) := by
  intro n
  induction n with
  | zero => intro i h1 h2; push_cast at h2; omega
  | succ n ih =>
    intro i h1 h2
    by_cases e : s.pc.toInt + i = s.cfg.memSize
    · have : s.memRead (s.pc.toInt + i) = .error (.outOfBoundsAddress s.cfg.memSize) := by
        rw [State.memRead_error, ← Bool.not_eq_true, inBounds_iff, e]; simp
      rw [State.fetchArgs, this, error_bind]
    · have h3 : s.memRead (s.pc.toInt + i) = .ok (s.mem.read (s.pc.toInt + i).toNat) := by
        rw [State.memRead_ok, inBounds_iff]; refine ⟨by omega, rfl⟩
      rw [State.fetchArgs, h3, ok_bind, ih (i+1) (by push_cast at *; omega) (by push_cast at *; omega), error_bind]

/-- A short advance from an address does not leave 64 bits. -/
theorem advance_toInt {s : State} {k : Nat} (hk : k ≤ 4) (h0 : 0 ≤ s.pc.toInt) (h : s.pc.toInt + k ≤ 9223372036854775807) :
   (s.pc + BitVec.ofNat 64 k).toInt = s.pc.toInt + k := by
  rw [BitVec.toInt_add]
  have : (BitVec.ofNat 64 k).toInt = k := by
    rw [BitVec.toInt_ofNat', Int.bmod_def]; norm_num; split <;> omega
  rw [this, Int.bmod_def]; norm_num; split <;> omega

end Sys2Proof.Machine
end

