-- ==== Sys2Proof/Laws/Fault.lean ====
section
/-! SUPPORT. The records that errors leave are legal. -/

namespace Sys2Proof.Machine

/-- A record of an error that names no slot is legal. -/
theorem Trap.record_wf_of_plain {t : Trap} (pc : Word) (h : ∀ e, t ≠ .decode e) :
    (t.record pc).wf = true := by
  cases t with
  | decode e => exact absurd rfl (h e)
  | inputExhausted => simp [Trap.record, FaultRecord.wf, FaultRecord.empty]
  | outOfBoundsAddress a => simp [Trap.record, FaultRecord.wf, FaultRecord.empty]
  | arithmeticOverflow v => simp [Trap.record, FaultRecord.wf, FaultRecord.empty]

/-- The record of a mode error with a legal slot and a decimal digit is legal. -/
theorem record_wf_of_mode {cell pc : Word} {slot digit : Nat} (h1 : 1 ≤ slot) (h2 : slot ≤ 17)
    (h3 : digit < 10) : ((Trap.decode (.invalidAddressingMode cell slot digit)).record pc).wf = true := by
  simp only [Trap.record, FaultRecord.wf, FaultRecord.empty, BitVec.toNat_ofNat, decide_eq_true_eq]
  rw [Nat.mod_eq_of_lt (by omega : slot < 2 ^ 5), Nat.mod_eq_of_lt (by omega : digit < 2 ^ 4)]
  exact ⟨trivial, h1, h2, by omega, trivial⟩

/-- The record of a decode error of a cell is legal. -/
theorem record_wf_of_decode {p : ExcessPolicy} {cell pc : Word} {e : DecodeError}
    (h : decodeCell p cell = .error e) : ((Trap.decode e).record pc).wf = true := by
  rcases decodeCell_error h with ⟨rfl, -⟩ | ⟨op, -, -, ⟨j, h1, h2, rfl⟩ | rfl | ⟨i, hi, rfl⟩⟩
  · simp [Trap.record, FaultRecord.wf, FaultRecord.empty]
  · have := op.arity_le
    exact record_wf_of_mode h1 (by omega) (digit_lt _ _)
  · have := excessSlot_range cell.toInt.toNat op.arity_le
    exact record_wf_of_mode (by omega) this.2 (digit_lt _ _)
  · rcases Opcode.writeSlots_mem hi with rfl | rfl <;>
      simp [Trap.record, FaultRecord.wf, FaultRecord.empty]

/-- An error of the phases of a well-formed instruction is none of decode. -/
theorem phases_error_plain {i : Instr} {s : State} {t : Trap} (hw : i.wf = true)
    (h : phases i s = .error t) : ∀ e, t ≠ .decode e := by
  have hr : ∀ o, s.readOperand o = .error t → ∀ e, t ≠ .decode e := by
    intro o ho e he
    obtain ⟨a, ha, -⟩ := State.readOperand_error ho
    simp [ha] at he
  have ht : ∀ k o, o.canBeTarget = true → s.writeAddress k o = .error t → ∀ e, t ≠ .decode e := by
    intro k o hc ho e he
    obtain ⟨a, ha, -⟩ := State.writeAddress_error hc ho
    simp [ha] at he
  have har : ∀ v, arith s.cfg v = .error t → ∀ e, t ≠ .decode e := by
    intro v hv e he
    simp [(arith_error hv).1] at he
  cases i with
  | add a b c =>
    rcases State.binaryToCell_error h with h | h | h | ⟨x, y, h⟩
    · exact hr _ h
    · exact hr _ h
    · exact ht _ _ hw h
    · exact har _ h
  | mul a b c =>
    rcases State.binaryToCell_error h with h | h | h | ⟨x, y, h⟩
    · exact hr _ h
    · exact hr _ h
    · exact ht _ _ hw h
    · exact har _ h
  | inp c =>
    simp only [phases, bind_eq_error] at h
    rcases h with h | ⟨a, -, h | ⟨v, -, h⟩⟩
    · exact ht _ _ hw h
    · intro e he; simp [(State.readInput_error h).1] at he
    · simp at h
  | out a =>
    simp only [phases, bind_eq_error] at h
    rcases h with h | ⟨x, -, h⟩
    · exact hr _ h
    · simp at h
  | jt a b =>
    rcases State.jumpWhen_error h with h | h
    · exact hr _ h
    · exact hr _ h
  | jf a b =>
    rcases State.jumpWhen_error h with h | h
    · exact hr _ h
    · exact hr _ h
  | lt a b c =>
    rcases State.binaryToCell_error h with h | h | h | ⟨x, y, h⟩
    · exact hr _ h
    · exact hr _ h
    · exact ht _ _ hw h
    · simp at h
  | eq a b c =>
    rcases State.binaryToCell_error h with h | h | h | ⟨x, y, h⟩
    · exact hr _ h
    · exact hr _ h
    · exact ht _ _ hw h
    · simp at h
  | arb a =>
    simp only [phases, bind_eq_error] at h
    rcases h with h | ⟨x, -, h | ⟨r, -, h⟩⟩
    · exact hr _ h
    · exact har _ h
    · simp at h
  | halt => simp [phases] at h

/-- The argument of a decoded cell has the mode of its digit. -/
theorem DecodedCell.operand_mode (d : DecodedCell) (raw : List Word) (i : Nat)
    (h : i - 1 < d.modes.length) : some (d.operand raw i).mode = d.modes[i - 1]? := by
  simp [DecodedCell.operand, List.getD_eq_getElem?_getD, List.getElem?_eq_getElem h]

/-- A decoded instruction is well formed. -/
theorem toInstr_wf {p : ExcessPolicy} {cell : Word} {d : DecodedCell} (raw : List Word)
    (h : decodeCell p cell = .ok d) : (d.toInstr raw).wf = true := by
  obtain ⟨-, -, hl, -, -, hw⟩ := decodeCell_ok h
  obtain ⟨op, ms⟩ := d
  have key : ∀ i, i - 1 < ms.length → ms[i - 1]? ≠ some .immediate →
      (({ op := op, modes := ms } : DecodedCell).operand raw i).canBeTarget = true := by
    intro i hi hne
    have := DecodedCell.operand_mode { op := op, modes := ms } raw i hi
    rw [← this] at hne
    simpa [Operand.canBeTarget] using hne
  cases op <;> simp only [Opcode.arity] at hl <;> first | rfl | skip
  all_goals
    simp only [DecodedCell.toInstr, Instr.wf]
    refine key _ (by omega) (hw _ ?_)
    simp [Opcode.writeSlots]

/-- The instruction a step fetches is well formed. -/
theorem State.fetchInstr_wf {s : State} {i : Instr} (h : s.fetchInstr = .ok i) : i.wf = true := by
  obtain ⟨d, raw, -, hd, -, rfl⟩ := State.fetchInstr_ok h
  exact toInstr_wf raw hd

/-- The record of an error of the fetch is legal. -/
theorem record_wf_of_fetch {s : State} {t : Trap} (pc : Word) (h : s.fetchInstr = .error t) :
    (t.record pc).wf = true := by
  rcases State.fetchInstr_error h with ⟨-, rfl⟩ | ⟨e, -, he, rfl⟩ | ⟨d, -, -, h⟩
  · exact Trap.record_wf_of_plain pc (by simp)
  · exact record_wf_of_decode he
  · obtain ⟨k, -, -, rfl⟩ := State.fetchArgs_error h
    exact Trap.record_wf_of_plain pc (by simp)

end Sys2Proof.Machine
end

