-- ==== Sys2Proof/Laws/PerInstr.lean ====
section
/-! SUPPORT. The families of statements that hold of every instruction as syntax, one lemma per
constructor. -/

namespace Sys2Proof.Laws.CellFields

/-- What the digits of the instruction cell say (30_encoding.md R71, R72, R85): the two low digits are the
opcode, no digit above the modes is set, and there are as many arguments as the arity. -/
def Statement (i : Instr) : Prop :=
  i.cellNumber % 100 = i.opcode.number ∧ i.cellNumber / 10 ^ (2 + i.opcode.arity) = 0 ∧
    i.operands.length = i.opcode.arity

theorem three {i : Instr} {a b c : Operand} (ho : i.operands = [a, b, c]) (hn : i.opcode.arity = 3) :
    Statement i := by
  have := Mode.digit_le a.mode
  have := Mode.digit_le b.mode
  have := Mode.digit_le c.mode
  have := i.opcode.number_lt
  simp only [Statement, Instr.cellNumber, Instr.modeDigit, ho, hn]
  refine ⟨?_, ?_, rfl⟩ <;> simp <;> omega

theorem two {i : Instr} {a b : Operand} (ho : i.operands = [a, b]) (hn : i.opcode.arity = 2) :
    Statement i := by
  have := Mode.digit_le a.mode
  have := Mode.digit_le b.mode
  have := i.opcode.number_lt
  simp only [Statement, Instr.cellNumber, Instr.modeDigit, ho, hn]
  refine ⟨?_, ?_, rfl⟩ <;> simp <;> omega

theorem one {i : Instr} {a : Operand} (ho : i.operands = [a]) (hn : i.opcode.arity = 1) :
    Statement i := by
  have := Mode.digit_le a.mode
  have := i.opcode.number_lt
  simp only [Statement, Instr.cellNumber, Instr.modeDigit, ho, hn]
  refine ⟨?_, ?_, rfl⟩ <;> simp <;> omega

theorem add (a b c : Operand) : Statement (.add a b c) := three rfl rfl
theorem mul (a b c : Operand) : Statement (.mul a b c) := three rfl rfl
theorem inp (c : Operand) : Statement (.inp c) := one rfl rfl
theorem out (a : Operand) : Statement (.out a) := one rfl rfl
theorem jt (a b : Operand) : Statement (.jt a b) := two rfl rfl
theorem jf (a b : Operand) : Statement (.jf a b) := two rfl rfl
theorem lt (a b c : Operand) : Statement (.lt a b c) := three rfl rfl
theorem eq (a b c : Operand) : Statement (.eq a b c) := three rfl rfl
theorem arb (a : Operand) : Statement (.arb a) := one rfl rfl
theorem halt : Statement .halt := ⟨rfl, rfl, rfl⟩

end Sys2Proof.Laws.CellFields
end

