-- ==== Sys2Proof/Laws/Run.lean ====
section
/-! SUPPORT. What holds at the end of a run command, by one induction over its steps. -/

namespace Sys2Proof.Machine

/-- A property that the steps of a run keep holds where the run command returns. -/
theorem State.runToReturn_ind (Q : State → Prop) (hstep : ∀ s s', Q s → s.isRunning = true → step s = .next s' → Q s') :
  ∀ fuel s s' r, Q s → s.runToReturn fuel = some (s', r) → Q s' ∧ s'.port = .returned r := by
  intro fuel
  induction fuel with
  | zero =>
    intro s s' r hq h
    simp only [State.runToReturn] at h
    split at h <;> simp at h
    rename_i hp
    obtain ⟨rfl, rfl⟩ := h
    exact ⟨hq, hp⟩
  | succ n ih =>
    intro s s' r hq h
    simp only [State.runToReturn] at h
    split at h
    · rename_i hp; simp at h; obtain ⟨rfl, rfl⟩ := h; exact ⟨hq, hp⟩
    · simp at h
    · rename_i c hp
      split at h
      · rename_i s1 hs
        exact ih _ _ _ (hstep _ _ hq (by simp [State.isRunning, hp]) hs) h
      · simp at h
      · simp at h

@[simp] theorem State.stepTimes_zero (s : State) : State.stepTimes 0 s = some s := rfl

/-- One step more, at the end. -/
theorem State.stepTimes_succ {s s₁ s' : State} {k : Nat} (h : State.stepTimes k s = some s₁)
    (hs : step s₁ = .next s') : State.stepTimes (k + 1) s = some s' := by
  induction k generalizing s with
  | zero =>
    simp only [State.stepTimes_zero, Option.some.injEq] at h
    subst h
    simp [State.stepTimes, hs]
  | succ k ih =>
    simp only [State.stepTimes] at h
    split at h
    · rename_i s₂ h₂
      rw [State.stepTimes, h₂]
      exact ih h
    · simp at h
    · simp at h

end Sys2Proof.Machine
end

