-- ==== Sys2Proof/Laws/Text.lean ====
section
/-! SUPPORT. Decimal text: the digits of a number, a token with no white space, and a text split at its
commas. -/

namespace Sys2Proof.Machine

/-- Reading two strings of digits in a row. -/
theorem digitsValue_append (a : Nat) (xs ys : List Char) : digitsValue a (xs ++ ys) = digitsValue (digitsValue a xs) ys := by
  simp [digitsValue]

/-- Reading one digit. -/
theorem digitsValue_one (a : Nat) (c : Char) : digitsValue a [c] = 10 * a + digitValue c := rfl

/-- The character of a digit is a digit character of that value. -/
theorem digitChar_spec {d : Nat} (h : d < 10) : isDigit (Nat.digitChar d) = true ∧ digitValue (Nat.digitChar d) = d := by
  interval_cases d <;> decide

/-- The decimal digits of a number, by its own recursion. -/
theorem toDigitsCore_spec : ∀ (fuel n : Nat) (acc : List Char), n < fuel →
   ∃ ds, Nat.toDigitsCore 10 fuel n acc = ds ++ acc ∧ ds ≠ [] ∧ (∀ c ∈ ds, isDigit c = true) ∧ digitsValue 0 ds = n := by
  intro fuel
  induction fuel with
  | zero => intro n acc h; omega
  | succ f ih =>
    intro n acc h
    have hd := digitChar_spec (d := n % 10) (by omega)
    unfold Nat.toDigitsCore
    by_cases h0 : n / 10 = 0
    · simp only [h0, if_true]
      refine ⟨[(n % 10).digitChar], rfl, by simp, by simpa using hd.1, ?_⟩
      rw [digitsValue_one, hd.2]; omega
    · simp only [h0, if_false]
      obtain ⟨ds, h1, h2, h3, h4⟩ := ih (n / 10) ((n%10).digitChar :: acc) (by omega)
      refine ⟨ds ++ [(n % 10).digitChar], by simp [h1], by simp, ?_, ?_⟩
      · intro c hc; simp at hc; rcases hc with hc | rfl
        · exact h3 c hc
        · exact hd.1
      · rw [digitsValue_append, h4, digitsValue_one, hd.2]; omega

/-- The decimal digits of a number are digits, and read back as the number. -/
theorem toDigits_spec (n : Nat) : Nat.toDigits 10 n ≠ [] ∧ (∀ c ∈ Nat.toDigits 10 n, isDigit c = true) ∧ digitsValue 0 (Nat.toDigits 10 n) = n := by
  obtain ⟨ds, h1, h2, h3, h4⟩ := toDigitsCore_spec (n+1) n [] (by omega)
  simp only [List.append_nil] at h1
  unfold Nat.toDigits; rw [h1]; exact ⟨h2, h3, h4⟩

/-- A digit character is no sign, separator, white space or bracket. -/
theorem digit_ne {c : Char} (h : isDigit c = true) : c ≠ '-' ∧ c ≠ '+' ∧ c ≠ ',' ∧ isSpace c = false ∧ c ≠ ']' ∧ c ≠ 'r' ∧ c ≠ '.' ∧ c ≠ '#' := by
  simp only [isDigit, Bool.and_eq_true, decide_eq_true_eq] at h
  refine ⟨?_, ?_, ?_, ?_, ?_, ?_, ?_, ?_⟩
  · rintro rfl; revert h; decide
  · rintro rfl; revert h; decide
  · rintro rfl; revert h; decide
  · simp [isSpace]; omega
  · rintro rfl; revert h; decide
  · rintro rfl; revert h; decide
  · rintro rfl; revert h; decide
  · rintro rfl; revert h; decide

/-- A non-empty string of digits is read. -/
theorem readDigits_of {ds : List Char} (h0 : ds ≠ []) (h : ∀ c ∈ ds, isDigit c = true) : readDigits ds = some (digitsValue 0 ds) := by
  unfold readDigits
  rw [if_neg (by simpa using h0), if_pos (by simpa using h)]

/-- What is read is a non-empty string of digits. -/
theorem readDigits_some {ds : List Char} {n : Nat} (h : readDigits ds = some n) : ds ≠ [] ∧ ∀ c ∈ ds, isDigit c = true := by
  unfold readDigits at h
  split at h
  · simp at h
  · rename_i h0
    split at h
    · rename_i h1; exact ⟨by simpa using h0, by simpa using h1⟩
    · simp at h

/-- Plain decimal is digits, with `-` before those of a negative number. -/
theorem decimal_shape (v : Int) : ∃ ds, ds ≠ [] ∧ (∀ c ∈ ds, isDigit c = true) ∧ digitsValue 0 ds = v.natAbs ∧ decimal v = if v < 0 then '-' :: ds else ds := by
  obtain ⟨a, b, c⟩ := toDigits_spec v.natAbs
  exact ⟨_, a, b, c, rfl⟩

/-- No white space, nothing dropped. -/
theorem dropWhile_none {t : List Char} (h : ∀ c ∈ t, isSpace c = false) : t.dropWhile isSpace = t := by
  cases t with
  | nil => rfl
  | cons c cs => simp [h c (by simp)]

/-- A token with no white space is its own trimming. -/
theorem trim_of {t : List Char} (h : ∀ c ∈ t, isSpace c = false) : trimToken t = t := by
  unfold trimToken
  rw [dropWhile_none h, dropWhile_none (by simpa using h)]; simp

/-- The characters of plain decimal. -/
theorem decimal_chars (v : Int) : ∀ c ∈ decimal v, isDigit c = true ∨ c = '-' := by
  obtain ⟨ds, h0, h1, h2, h3⟩ := decimal_shape v
  rw [h3]; intro c hc
  split at hc
  · simp at hc; rcases hc with rfl | hc
    · exact .inr rfl
    · exact .inl (h1 c hc)
  · exact .inl (h1 c hc)

/-- Plain decimal holds none of the characters that end a token. -/
theorem decimal_plain (v : Int) : ∀ c ∈ decimal v, isSpace c = false ∧ c ≠ ',' ∧ c ≠ ']' ∧ c ≠ 'r' ∧ c ≠ '.' := by
  intro c hc
  rcases decimal_chars v c hc with h | rfl
  · have := digit_ne h; exact ⟨this.2.2.2.1, this.2.2.1, this.2.2.2.2.1, this.2.2.2.2.2.1, this.2.2.2.2.2.2.1⟩
  · decide

/-- A text has at least one token. -/
theorem split_ne (t : List Char) : splitCommas t ≠ [] := by
  cases t with
  | nil => simp [splitCommas]
  | cons c cs => simp only [splitCommas]; split; simp; split <;> simp

/-- A text with no comma is one token. -/
theorem split_plain {t : List Char} (h : ∀ c ∈ t, c ≠ ',') : splitCommas t = [t] := by
  induction t with
  | nil => rfl
  | cons c cs ih => simp [splitCommas, h c (by simp), ih (fun c hc => h c (by simp [hc]))]

/-- A token and its comma are split off. -/
theorem split_comma {t : List Char} (u : List Char) (h : ∀ c ∈ t, c ≠ ',') : splitCommas (t ++ ',' :: u) = t :: splitCommas u := by
  induction t with
  | nil => simp [splitCommas]
  | cons c cs ih => simp [splitCommas, h c (by simp), ih (fun c hc => h c (by simp [hc]))]

/-- Trimming drops white space in front. -/
theorem trim_space (c : Char) (t : List Char) (h : isSpace c = true) : trimToken (c :: t) = trimToken t := by
  unfold trimToken; rw [List.dropWhile_cons_of_pos h]

/-- A token that begins and ends with no white space is its own trimming. -/
theorem trim_first {c : Char} {t : List Char} (h : isSpace c = false) (hl : ∀ d, t.getLast? = some d → isSpace d = false) : trimToken (c :: t) = c :: t := by
  unfold trimToken
  rw [List.dropWhile_cons_of_neg (by simp [h])]
  rcases List.eq_nil_or_concat t with rfl | ⟨u, d, rfl⟩
  · simp [h]
  · have := hl d (by simp)
    simp [this]

/-- White space in front of a text that does not begin with any is dropped, and nothing else. -/
theorem dropWhile_front {w t : List Char} (hw : ∀ c ∈ w, isSpace c = true)
    (ht : ∀ c, t.head? = some c → isSpace c = false) : (w ++ t).dropWhile isSpace = t := by
  induction w with
  | nil => cases t with
    | nil => rfl
    | cons c cs => simp [ht c rfl]
  | cons c cs ih => simp [hw c (by simp)]; exact ih fun c hc => hw c (by simp [hc])

end Sys2Proof.Machine
end

