-- ==== Sys2Proof/Tests/Slice0.lean ====
section
/-! SUPPORT. Tests on small states, with expected results from the spec (95_test_vectors.md, or the encodings
of 30_encoding.md), and for every statement with hypotheses a state that meets them. -/

namespace Sys2Proof.Tests

open Sys2Proof Sys2Proof.Machine

/-! ## Helpers -/

/-- A Machine of `n` cells that holds a program from cell 0, in a run of `eval` with these inputs. -/
def batch (n : Nat) (program inputs : List Word) : State :=
  { State.new { Config.default with memSize := n } with
    mem := Memory.writeFrom [] 0 program, inQ := inputs, port := .running .eval }

/-- The same in a run of `pipe` with this input. -/
def piped (n : Nat) (program : List Word) (input : Word) : State :=
  { State.new { Config.default with memSize := n } with
    mem := Memory.writeFrom [] 0 program, inSlot := input, port := .running .pipe }

/-- What one step leaves, read by `f`. -/
def after {α : Type} (s : State) (f : State → α) : Option α :=
  match step s with
  | .next s' => some (f s')
  | .fault _ => none
  | .refused _ => none

/-! ## WellFormed: an ill-formed term for each check (30_encoding.md R79) -/

theorem test_wf_add : (Instr.add ⟨.position, 1⟩ ⟨.position, 2⟩ ⟨.immediate, 3⟩).wf = false := by decide
theorem test_wf_mul : (Instr.mul ⟨.position, 1⟩ ⟨.position, 2⟩ ⟨.immediate, 3⟩).wf = false := by decide
theorem test_wf_lt : (Instr.lt ⟨.position, 1⟩ ⟨.position, 2⟩ ⟨.immediate, 3⟩).wf = false := by decide
theorem test_wf_eq : (Instr.eq ⟨.position, 1⟩ ⟨.position, 2⟩ ⟨.immediate, 3⟩).wf = false := by decide
theorem test_wf_in : (Instr.inp ⟨.immediate, 3⟩).wf = false := by decide
theorem test_wf_reads : (Instr.jt ⟨.immediate, 1⟩ ⟨.immediate, 2⟩).wf = true := by decide

/-! ## Decoding: words written out digit by digit from 30_encoding.md R70, R72, R74, R85 -/

/-- `ADD` with modes (0, 1, 0) is `1001` (R85). -/
theorem test_decode_add : decode .fault [1001, 9, 5, 7] =
    .ok (.add ⟨.position, 9⟩ ⟨.immediate, 5⟩ ⟨.position, 7⟩, []) := by decide
/-- `MUL` with modes (1, 1, 0) is `1102` (R85). -/
theorem test_decode_mul : decode .fault [1102, 3, 4, 7, 99] =
    .ok (.mul ⟨.immediate, 3⟩ ⟨.immediate, 4⟩ ⟨.position, 7⟩, [99]) := by decide
/-- `IN` Position is `3` (R141). -/
theorem test_decode_in : decode .fault [3, 12] = .ok (.inp ⟨.position, 12⟩, []) := by decide
/-- `OUT` Relative is `204`; the offset of `204,-1` is -1 (R82, R85). -/
theorem test_decode_out : decode .fault [204, -1] = .ok (.out ⟨.relative, -1⟩, []) := by decide
/-- `5 + 100 m1 + 1000 m2` (R160). -/
theorem test_decode_jt : decode .fault [2105, 1, 7] =
    .ok (.jt ⟨.immediate, 1⟩ ⟨.relative, 7⟩, []) := by decide
/-- `6 + 100 m1 + 1000 m2` (R161). -/
theorem test_decode_jf : decode .fault [6, 12, 15] =
    .ok (.jf ⟨.position, 12⟩ ⟨.position, 15⟩, []) := by decide
/-- `7 + 100 m1 + 1000 m2 + 10000 m3` (R180). -/
theorem test_decode_lt : decode .fault [1107, -5, 3, 9] =
    .ok (.lt ⟨.immediate, -5⟩ ⟨.immediate, 3⟩ ⟨.position, 9⟩, []) := by decide
/-- `8 + 100 m1 + 1000 m2 + 10000 m3` (R181). -/
theorem test_decode_eq : decode .fault [21208, 100, 16, 101] =
    .ok (.eq ⟨.relative, 100⟩ ⟨.immediate, 16⟩ ⟨.relative, 101⟩, []) := by decide
/-- `ARB` Immediate is `109` (R85). -/
theorem test_decode_arb : decode .fault [109, 1] = .ok (.arb ⟨.immediate, 1⟩, []) := by decide
/-- `HALT` is `99` (R201). -/
theorem test_decode_halt : decode .fault [99, 99] = .ok (.halt, [99]) := by decide
/-- R76's examples, and a negative cell. -/
theorem test_decode_illegal : ([0, 10, 98, 100, -1] : List Word).map (decodeCell .fault) =
    ([0, 10, 98, 100, -1] : List Word).map fun c => .error (.invalidOpcode c) := by decide
/-- A missing argument cell (R70). -/
theorem test_decode_short : decode .fault [1002, 4, 3] = .error (.missing 3) := by decide

/-! ## The host's numbering of the words -/

theorem test_table_word : decodeTableWord 64 1002 =
    some (.mul ⟨.position, 0⟩ ⟨.immediate, 0⟩ ⟨.position, 0⟩) := by decide
theorem test_table_word_operand : decodeTableWord 128 (104 + 7 * 2 ^ 64) =
    some (.out ⟨.immediate, 7⟩) := by decide
/-- The very next step runs the word: `OUT #7` emits 7 in the run that `withFetchWord` leaves. -/
theorem test_with_fetch_word :
    after (State.reset.withFetchWord 128 (104 + 7 * 2 ^ 64)) (fun s => (s.outSlot, s.pc)) =
      some (7, 2) := by decide
theorem test_with_fetch_word_halt :
    after (State.reset.withFetchWord 64 99) (fun s => (s.halt, s.pc)) = some (true, 0) := by decide

/-! ## One step of each instruction (95_test_vectors.md) -/

/-- V-L1-5: `[1,0,0,0,99]` reads before it writes, `M[0] = 2`. -/
theorem test_add_in_place : after (batch 64 [1, 0, 0, 0, 99] []) (fun s => (s.mem.read 0, s.pc)) =
    some (2, 4) := by decide
/-- R120: an exact sum outside 64 bits is recorded whole. -/
theorem test_add_overflow :
    after (batch 64 [1101, 9223372036854775807, 1, 0] []) (fun s => (s.fault.kind, s.fault.value, s.pc)) =
      some (.arithmeticOverflow, 9223372036854775808, 0) := by decide
/-- V-L1-1: `[1002,4,3,4,33]` writes 99. -/
theorem test_mul_mixed_modes : after (batch 64 [1002, 4, 3, 4, 33] []) (fun s => s.mem.read 4) =
    some 99 := by decide
/-- R120: under `wrap` the product is taken modulo `2^64`. -/
theorem test_mul_wraps :
    after { batch 64 [1102, 4611686018427387904, 2, 0] [] with
        cfg := { memSize := 64, overflow := .wrap, excess := .fault } } (fun s => s.mem.read 0) =
      some (-9223372036854775808) := by decide
/-- R141: `IN` takes the head of `IN_Q`. -/
theorem test_in_batch : after (batch 64 [3, 12] [5, 6]) (fun s => (s.mem.read 12, s.inQ, s.pc)) =
    some (5, [6], 2) := by decide
/-- R140: an empty queue. -/
theorem test_in_exhausted : after (batch 64 [3, 12] []) (fun s => (s.fault.kind, s.pc)) =
    some (.inputExhausted, 0) := by decide
/-- R142: `OUT` appends in batch mode, and the run goes on. -/
theorem test_out_batch : after (batch 64 [104, -7] []) (fun s => (s.outSeq, s.port)) =
    some ([-7], .running .eval) := by decide
/-- R226: under `pipe` an `OUT` returns its value with `PC` past it. -/
theorem test_out_pipe : after (piped 64 [104, -7] 3) (fun s => (s.outSeq, s.pc, s.port)) =
    some ([], 2, .returned (.output (-7))) := by decide
/-- V-JT-1, V-JT-2: `1105,1,7` jumps and `1105,0,7` does not. -/
theorem test_jt : (after (batch 64 [1105, 1, 7] []) (·.pc), after (batch 64 [1105, 0, 7] []) (·.pc)) =
    (some 7, some 3) := by decide
/-- R162: a negative target is loaded and does not fault. -/
theorem test_jt_unchecked : after (batch 64 [1105, -1, -2] []) (fun s => (s.pc, s.faulted)) =
    some (-2, false) := by decide
/-- R161: the condition and the target are both read through memory. -/
theorem test_jf : after (batch 64 [6, 12, 3, 9] []) (·.pc) = some 9 := by decide
/-- R161: only 0 is false. -/
theorem test_jf_negative : after (batch 64 [1106, -1, 9] []) (·.pc) = some 3 := by decide
/-- V-LT-1: `1107,-5,3,9` sets `M[9] = 1`. -/
theorem test_lt_signed : after (batch 64 [1107, -5, 3, 9] []) (fun s => s.mem.read 9) = some 1 := by decide
/-- R180: `x < x` gives 0. -/
theorem test_lt_equal : after (batch 64 [1107, 3, 3, 0] []) (fun s => s.mem.read 0) = some 0 := by decide
/-- R181: `1008,100,16,101` with `M[100] = 16` sets `M[101] = 1`; here with smaller addresses. -/
theorem test_eq : after (batch 64 [1008, 4, 16, 5, 16] []) (fun s => s.mem.read 5) = some 1 := by decide
/-- R181: `1 = -1` gives 0. -/
theorem test_eq_sign : after (batch 64 [1108, 1, -1, 0] []) (fun s => s.mem.read 0) = some 0 := by decide
/-- R200: `209,k` reads `M[RB + k]` with the old `RB`. -/
theorem test_arb_relative : after { batch 64 [209, 1, 0, 30] [] with rb := 2 } (fun s => (s.rb, s.pc)) =
    some (32, 2) := by decide
/-- R25: `RB` may be negative. -/
theorem test_arb_negative : after (batch 64 [109, -3] []) (·.rb) = some (-3) := by decide
/-- R201: `HALT` keeps `PC`. -/
theorem test_halt : after { batch 64 [0, 0, 0, 0, 99] [] with pc := 4 } (fun s => (s.halt, s.pc)) =
    some (true, 4) := by decide
/-- V-HALT-2: `1099` under `fault`. -/
theorem test_halt_excess : after (batch 64 [1099] []) (·.fault) =
    some { FaultRecord.empty with kind := .invalidAddressingMode, cell := 1099, slot := 2, digit := 1 } := by
  decide

/-- The codes of R260 and R32, in the tables' order. -/
theorem test_codes :
    [FaultKind.none, .invalidOpcode, .invalidAddressingMode, .inputExhausted, .outOfBoundsAddress,
      .illegalWriteMode, .arithmeticOverflow].map FaultKind.code = [0, 1, 2, 3, 4, 5, 6] ∧
    [Status.ready, .halted, .faulted].map Status.code = [0, 1, 2] := by decide

/-- R264's example: `13001` reports the invalid digit 3 at argument 2, not its Immediate target. -/
theorem test_priority : decodeCell .fault 13001 = .error (.invalidAddressingMode 13001 2 3) := by decide

/-! ## Text (95_test_vectors.md 2.8, 30_encoding.md R86) -/

theorem test_parse : parse [' ', '1', ',', ' ', '-', '2', ' ', ',', '+', '3', '\n'] = .ok [1, -2, 3] := by decide
theorem test_parse_empty_token : parse ['1', ',', ',', '2'] = .error (.parseError 1) := by decide
/-- R86's example: `MUL [4], #3, [4]` assembles to `1002,4,3,4`. -/
theorem test_assemble : assemble ["MUL [4], #3, [4]".toList] = some [1002, 4, 3, 4] := by decide
theorem test_assemble_relative : assemble ["OUT [rb-1]".toList, "-5".toList] = some [204, -1, -5] := by decide

/-! ## Witnesses: for every statement with hypotheses, states and operands that meet them -/

theorem witness_DecodeOfEncodeIsTheInstruction :
    (Instr.add ⟨.relative, -1⟩ ⟨.immediate, 9223372036854775807⟩ ⟨.relative, -9223372036854775808⟩).wf = true := by
  decide

theorem witness_AcceptedCellsAreTheEncoding : decode .fault [22201, 1, 2, 3, 99] =
    .ok (.add ⟨.relative, 1⟩ ⟨.relative, 2⟩ ⟨.relative, 3⟩, [99]) := by decide

theorem witness_InvalidOpcodeExactly : (-1 : Word).toInt < 0 ∧
    (98 : Word).toInt % 100 ∉ ([1, 2, 3, 4, 5, 6, 7, 8, 9, 99] : List Int) ∧
    (199 : Word).toInt % 100 ∈ ([1, 2, 3, 4, 5, 6, 7, 8, 9, 99] : List Int) := by decide

/-- The first argument and the last one. -/
theorem witness_InvalidModeDigitIsReportedAtItsArgument :
    (Opcode.ofNumber ((93301 : Word).toInt.toNat % 100) = some .add ∧
      3 ≤ digit (93301 : Word).toInt.toNat (1 + 1)) ∧
    (Opcode.ofNumber ((32201 : Word).toInt.toNat % 100) = some .add ∧ 3 ≤ Opcode.add.arity ∧
      3 ≤ digit (32201 : Word).toInt.toNat (1 + 3) ∧
      ∀ k, 1 ≤ k → k < 3 → digit (32201 : Word).toInt.toNat (1 + k) ≤ 2) := by
  refine ⟨by decide, by decide, by decide, by decide, fun k h1 h2 => ?_⟩
  interval_cases k <;> decide

/-- The lowest excess slot, the highest, and no excess digit. -/
theorem witness_ExcessDigitFollowsThePolicy :
    (0 ≤ (199 : Word).toInt ∧ Opcode.ofNumber ((199 : Word).toInt.toNat % 100) = some .halt ∧
      digit (199 : Word).toInt.toNat (1 + 1) ≠ 0) ∧
    (0 ≤ (1000000000000000099 : Word).toInt ∧
      Opcode.ofNumber ((1000000000000000099 : Word).toInt.toNat % 100) = some .halt ∧
      digit (1000000000000000099 : Word).toInt.toNat (1 + 17) ≠ 0 ∧
      ∀ k, Opcode.halt.arity < k → k < 17 →
        digit (1000000000000000099 : Word).toInt.toNat (1 + k) = 0) ∧
    ∀ j, Opcode.halt.arity < j → digit (99 : Word).toInt.toNat (1 + j) = 0 := by
  refine ⟨by decide, ⟨by decide, by decide, by decide, fun k h1 h2 => ?_⟩, fun j h => ?_⟩
  · simp only [Opcode.arity] at h1
    interval_cases k <;> decide
  · have h99 : (99 : Word).toInt.toNat = 99 := by decide
    have : 10 ^ 2 ≤ 10 ^ (1 + j) := Nat.pow_le_pow_right (by decide) (by simp only [Opcode.arity] at h; omega)
    rw [h99, digit, Nat.div_eq_of_lt (by omega)]

theorem witness_ImmediateIsIllegalExactlyOnWriteTargets :
    (Opcode.ofNumber ((11101 : Word).toInt.toNat % 100) = some .add ∧ 3 ∈ Opcode.add.writeSlots ∧
      (11101 : Word).toInt.toNat < 10 ^ (2 + Opcode.add.arity) ∧
      (∀ k, 1 ≤ k → k ≤ 3 → digit (11101 : Word).toInt.toNat (1 + k) ≤ 2) ∧
      digit (11101 : Word).toInt.toNat (1 + 3) = 1) ∧
    (Opcode.ofNumber ((203 : Word).toInt.toNat % 100) = some .inp ∧
      (203 : Word).toInt.toNat < 10 ^ (2 + Opcode.inp.arity) ∧
      ∀ i ∈ Opcode.inp.writeSlots, digit (203 : Word).toInt.toNat (1 + i) ≠ 1) := by
  refine ⟨⟨by decide, by decide, by decide, fun k h1 h2 => ?_, by decide⟩, by decide, by decide, by decide⟩
  interval_cases k <;> decide

theorem witness_WrapIsTheUniqueCongruentWord :
    ((-9223372036854775808 : Word).toInt - 9223372036854775808) % 2 ^ 64 = 0 ∧
      fits64 9223372036854775807 = true ∧ fits64 (-9223372036854775808) = true ∧
      fits64 9223372036854775808 = false ∧ fits64 (-9223372036854775809) = false := by decide

theorem witness_ArithFollowsTheOverflowPolicy :
    arith Config.default 9223372036854775807 = .ok 9223372036854775807 ∧
      arith Config.default 9223372036854775808 = .error (.arithmeticOverflow 9223372036854775808) ∧
      arith { Config.default with overflow := .wrap } 9223372036854775808 =
        .ok (-9223372036854775808) := by
  refine ⟨?_, ?_, ?_⟩ <;> decide

/-- The first cell, the last cell, and the addresses beside them. -/
theorem witness_MemReadAndMemWriteAreBoundsChecked :
    let s := batch 64 [99] []
    s.Inv ∧ s.memRead 0 = .ok 99 ∧ s.memRead 63 = .ok 0 ∧
      s.memRead (-1) = .error (.outOfBoundsAddress (-1)) ∧
      s.memRead 64 = .error (.outOfBoundsAddress 64) := by
  refine ⟨?_, ?_, ?_, ?_, ?_⟩ <;> decide

/-- Boundary addresses in each mode; a Relative sum above 64 bits does not wrap into memory. -/
theorem witness_operands :
    let s := { batch 64 [99] [] with rb := 9223372036854775807 }
    s.readOperand ⟨.position, 63⟩ = .ok 0 ∧
      s.readOperand ⟨.position, 64⟩ = .error (.outOfBoundsAddress 64) ∧
      s.readOperand ⟨.relative, -9223372036854775807⟩ = .ok 99 ∧
      s.readOperand ⟨.relative, 1⟩ = .error (.outOfBoundsAddress 9223372036854775808) ∧
      s.writeAddress 3 ⟨.position, -1⟩ = .error (.outOfBoundsAddress (-1)) ∧
      s.writeAddress 3 ⟨.relative, -9223372036854775744⟩ = .ok 63 := by
  refine ⟨?_, ?_, ?_, ?_, ?_, ?_⟩ <;> decide

/-- `AddStoresTheSum`, `MulStoresTheProduct`, `LessThanStoresTheSignedComparison`,
`EqualsStoresTheComparison`: in bounds with a result that fits; and with one that does not, under `wrap`. -/
theorem witness_binary_instructions :
    let s := batch 64 [1101, 2, 3, 63] []
    s.Inv ∧ s.readOperand ⟨.immediate, 2⟩ = .ok 2 ∧ s.readOperand ⟨.position, 2⟩ = .ok 3 ∧
      s.writeAddress 3 ⟨.position, 63⟩ = .ok 63 ∧
      fits64 ((2 : Word).toInt + (3 : Word).toInt) = true ∧
      fits64 ((2 : Word).toInt * (3 : Word).toInt) = true ∧
      fits64 ((9223372036854775807 : Word).toInt + (1 : Word).toInt) = false ∧
      ({ s with cfg := { s.cfg with overflow := .wrap } } : State).Inv := by
  refine ⟨?_, ?_, ?_, ?_, ?_, ?_, ?_, ?_⟩ <;> decide

theorem witness_InTakesTheHeadOfTheQueue :
    let s := batch 64 [3, 12] [5, 6]
    s.Inv ∧ s.ioMode = .batch ∧ s.inQ = [5, 6] ∧ s.writeAddress 1 ⟨.position, 12⟩ = .ok 12 := by
  refine ⟨?_, ?_, ?_, ?_⟩ <;> decide

theorem witness_InReadsTheStagedInput :
    let s := piped 64 [3, 12] 5
    s.Inv ∧ s.ioMode = .step ∧ s.writeAddress 1 ⟨.relative, 0⟩ = .ok 0 := by
  refine ⟨?_, ?_, ?_⟩ <;> decide

theorem witness_OutEmitsByTheIoMode :
    (batch 64 [104, -7] []).readOperand ⟨.position, 1⟩ = .ok (-7) ∧
      (batch 64 [104, -7] []).ioMode = .batch ∧ (piped 64 [104, -7] 0).ioMode = .step := by
  refine ⟨?_, ?_, ?_⟩ <;> decide

/-- `JumpIfTrueLoadsTheTarget`, `JumpIfFalseLoadsTheTarget`: a condition of 0, one that is not, and a target
out of bounds. -/
theorem witness_jumps :
    let s := batch 64 [1105, 0, -2] []
    s.readOperand ⟨.position, 1⟩ = .ok 0 ∧ s.readOperand ⟨.position, 0⟩ = .ok 1105 ∧
      s.readOperand ⟨.immediate, -2⟩ = .ok (-2) := by
  refine ⟨?_, ?_, ?_⟩ <;> decide

theorem witness_ArbAddsToTheRelativeBase :
    (batch 64 [109, -3] []).readOperand ⟨.immediate, -3⟩ = .ok (-3) ∧
      fits64 ((batch 64 [109, -3] []).rb.toInt + (-3 : Word).toInt) = true := by
  refine ⟨?_, ?_⟩ <;> decide

/-- One state for the three instructions: `RB` and the operand are the largest word. -/
theorem witness_OverflowIsRaisedByAddMulAndArb :
    let s := { batch 64 [1] [] with rb := 9223372036854775807 }
    s.cfg.overflow = .fault ∧ s.readOperand ⟨.immediate, 9223372036854775807⟩ = .ok 9223372036854775807 ∧
      s.writeAddress 3 ⟨.position, 0⟩ = .ok 0 ∧
      fits64 (s.rb.toInt + (9223372036854775807 : Word).toInt) = false ∧
      fits64 ((9223372036854775807 : Word).toInt * (9223372036854775807 : Word).toInt) = false := by
  refine ⟨?_, ?_, ?_, ?_, ?_⟩ <;> decide

theorem witness_InputErrorsConsumeNothing :
    let s := batch 64 [3, 64] []
    s.ioMode = .batch ∧ s.inQ = [] ∧ s.writeAddress 1 ⟨.position, 63⟩ = .ok 63 ∧
      s.writeAddress 1 ⟨.position, 64⟩ = .error (.outOfBoundsAddress 64) := by
  refine ⟨?_, ?_, ?_, ?_⟩ <;> decide

theorem witness_OperandErrorsComeInArgumentOrder :
    let s := batch 64 [1, 64, 65, 66] []
    s.readOperand ⟨.position, 64⟩ = .error (.outOfBoundsAddress 64) ∧
      s.readOperand ⟨.position, 63⟩ = .ok 0 ∧
      s.writeAddress 3 ⟨.position, -1⟩ = .error (.outOfBoundsAddress (-1)) := by
  refine ⟨?_, ?_, ?_⟩ <;> decide

/-- A store, and an error raised. -/
theorem witness_FrameOfEveryInstruction :
    (∃ s', exec (.add ⟨.immediate, 1⟩ ⟨.immediate, 2⟩ ⟨.position, 9⟩) (batch 64 [99] []) = .next s' ∧
      (batch 64 [99] []).storeAddress (.add ⟨.immediate, 1⟩ ⟨.immediate, 2⟩ ⟨.position, 9⟩) = some 9) ∧
    ∃ s', exec (.inp ⟨.position, 9⟩) (batch 64 [99] []) = .next s' ∧
      s'.fault ≠ (batch 64 [99] []).fault :=
  ⟨⟨_, rfl, by decide⟩, ⟨_, rfl, by decide⟩⟩

theorem witness_StepExecutesTheDecodedInstruction :
    let s := batch 4 [1101, 1, 2, 0] []
    s.port = .running .eval ∧ s.faulted = false ∧ s.halt = false ∧ s.stopsBefore .eval = false ∧
      decode s.cfg.excess s.cellsAtPc =
        .ok (.add ⟨.immediate, 1⟩ ⟨.immediate, 2⟩ ⟨.position, 0⟩, []) ∧
      ∃ s', exec (.add ⟨.immediate, 1⟩ ⟨.immediate, 2⟩ ⟨.position, 0⟩) s = .next s' := by
  refine ⟨?_, ?_, ?_, ?_, ?_, ⟨_, rfl⟩⟩ <;> decide

theorem witness_CommandGoesOnAsItsRuleSays :
    ({ batch 64 [] [] with fault := { FaultRecord.empty with kind := .inputExhausted } } : State).faulted =
        true ∧
      (piped 64 [] 0).faulted = false ∧ (piped 64 [] 0).port = .running .pipe ∧
      (Instr.out ⟨.immediate, 1⟩).opcode = .out ∧ Instr.halt.opcode ≠ .out := by decide

/-- `PC` just below and just above memory, a cell that does not decode, an instruction that ends with memory
and one that runs past it. -/
theorem witness_FetchErrorsComeInOrder :
    ({ batch 4 [] [] with pc := -1 } : State).fetchInstr = .error (.outOfBoundsAddress (-1)) ∧
      ({ batch 4 [] [] with pc := 4 } : State).fetchInstr = .error (.outOfBoundsAddress 4) ∧
      (batch 4 [] []).fetchInstr = .error (.decode (.invalidOpcode 0)) ∧
      ({ batch 4 [0, 1101, 1, 2] [] with pc := 1 } : State).fetchInstr = .error (.outOfBoundsAddress 4) ∧
      (batch 4 [1101, 1, 2, 3] []).fetchInstr =
        .ok (.add ⟨.immediate, 1⟩ ⟨.immediate, 2⟩ ⟨.position, 3⟩) := by
  refine ⟨?_, ?_, ?_, ?_, ?_⟩ <;> decide

theorem witness_BadPcFaultsAtTheFetch :
    let s := { batch 64 [99] [] with pc := 64 }
    s.port = .running .eval ∧ s.faulted = false ∧ s.halt = false ∧
      ¬(0 ≤ s.pc.toInt ∧ s.pc.toInt < s.cfg.memSize) := by decide

theorem witness_EveryStepKeepsTheInvariant :
    (batch 64 [1101, 1, 2, 63] []).Inv ∧ ∃ s', step (batch 64 [1101, 1, 2, 63] []) = .next s' :=
  ⟨by decide, _, rfl⟩

/-- The largest capacity. -/
theorem witness_NewMachineMeetsTheInvariant :
    ({ Config.default with memSize := 9223372036854775807 } : Config).wf = true := by decide

theorem witness_EveryReachableStateMeetsTheInvariant :
    ∃ s : State, s.Reachable ∧ s.isRunning = true ∧ s.pc = 2 :=
  ⟨_, .step (.issue (.pipe 0) (.issue (.loadCode [109, 1, 99])
    (.new { Config.default with memSize := 64 } (by decide)) rfl) rfl) rfl, by decide, by decide⟩

/-- `ErrorsArePrecise` and `InstructionsRaiseOnlyTheListedErrors`: an error of a decoded instruction, and one
of the decode. -/
theorem witness_errors :
    ((batch 64 [3, 12] []).faulted = false ∧
      ∃ s', step (batch 64 [3, 12] []) = .next s' ∧ s'.faulted = true) ∧
    ((batch 64 [103, 12] []).faulted = false ∧
      ∃ s', step (batch 64 [103, 12] []) = .next s' ∧ s'.fault.kind = .illegalWriteMode) :=
  ⟨⟨by decide, _, rfl, by decide⟩, by decide, _, rfl, by decide⟩

theorem witness_FaultIsStickyUntilReset :
    let f := { FaultRecord.empty with kind := .inputExhausted }
    (∃ s : State, s = { batch 64 [99] [] with fault := f } ∧ s.faulted = true ∧ s.isRunning = true ∧
      ∃ s', step s = .next s') ∧
    ∃ s : State, s = { batch 64 [99] [] with fault := f, port := .idle } ∧ s.faulted = true ∧
      s.isRunning = false ∧ ∃ s', s.issue (.loadCode [99]) = .next s' :=
  ⟨⟨_, rfl, by decide, by decide, _, rfl⟩, _, rfl, by decide, by decide, _, rfl⟩

theorem witness_HaltedMachineExecutesNothing :
    let s := { batch 64 [99] [] with halt := true }
    s.faulted = false ∧ s.halt = true ∧ s.port = .running .eval ∧
      ({ s with port := .running .pipe } : State).faulted = false ∧
      ({ s with port := .running (.consumeSingleInput false) } : State).halt = true := by decide

theorem witness_OnlyHaltSetsAndOnlyResetClearsTheFlag :
    (∃ s', step (batch 64 [99] []) = .next s' ∧ (batch 64 [99] []).halt = false ∧ s'.halt = true) ∧
    (∃ s', step { batch 64 [99] [] with halt := true } = .next s' ∧ s'.halt = true) ∧
    (∃ s', ({ batch 64 [99] [] with port := .idle, halt := true } : State).issue .reset = .next s') ∧
    ∃ s', ({ batch 64 [99] [] with port := .idle, halt := true } : State).issue (.eval none) = .next s' :=
  ⟨⟨_, rfl, by decide, by decide⟩, ⟨_, rfl, by decide⟩, ⟨_, rfl⟩, _, rfl⟩

theorem witness_OnlyArbWritesTheRelativeBase :
    ∃ s', step (batch 64 [109, 5] []) = .next s' ∧ s'.rb ≠ (batch 64 [109, 5] []).rb :=
  ⟨_, rfl, by decide⟩

theorem witness_NoStepWritesTheStagedInput :
    (∃ s', step (piped 64 [3, 9] 5) = .next s' ∧ s'.inSlot = 5) ∧
    ∃ s', ({ piped 64 [3, 9] 5 with port := .idle } : State).issue .reset = .next s' :=
  ⟨⟨_, rfl, by decide⟩, _, rfl⟩

/-- The three ways: the last cell's `HALT`, a taken jump, an advance to the end of memory. -/
theorem witness_PcChangesInThreeWays :
    (({ batch 4 [0, 0, 0, 99] [] with pc := 3 } : State).Inv ∧
      ({ batch 4 [0, 0, 0, 99] [] with pc := 3 } : State).fetchInstr = .ok .halt) ∧
    ((batch 4 [1106, 0, -1] []).Inv ∧
      (batch 4 [1106, 0, -1] []).fetchInstr = .ok (.jf ⟨.immediate, 0⟩ ⟨.immediate, -1⟩)) ∧
    after (batch 4 [1101, 1, 2, 0] []) (fun s => (s.pc, s.faulted)) = some (4, false) := by
  refine ⟨⟨?_, ?_⟩, ⟨?_, ?_⟩, ?_⟩ <;> decide

theorem witness_StepStoresOnlyAtTheTarget :
    ∃ s', step (batch 64 [1101, 1, 2, 9] []) = .next s' ∧
      ∀ i, (batch 64 [1101, 1, 2, 9] []).fetchInstr = .ok i →
        (batch 64 [1101, 1, 2, 9] []).storeAddress i ≠ some 8 := by
  refine ⟨_, rfl, fun i h => ?_⟩
  have hi : (batch 64 [1101, 1, 2, 9] []).fetchInstr =
    .ok (.add ⟨.immediate, 1⟩ ⟨.immediate, 2⟩ ⟨.position, 9⟩) := by decide
  rw [hi, Except.ok.injEq] at h
  subst h
  decide

/-- HALTED by `HALT`; FAULTED by an error of the fetch and by one of an instruction; READY kept by an `ADD` and
by an output that `pipe` returns; HALTED and FAULTED Machines; and the host commands: `reset` of a halted
Machine and `loadCode` onto it. -/
theorem witness_StatusChangesAsTheProtocolSays :
    ((batch 64 [99] []).Inv ∧ (batch 64 [99] []).status = .ready ∧ (batch 64 [99] []).isRunning = true ∧
      (batch 64 [99] []).fetchInstr = .ok .halt ∧ after (batch 64 [99] []) (·.status) = some .halted) ∧
    ((batch 64 [98] []).Inv ∧ (batch 64 [98] []).status = .ready ∧
      (batch 64 [98] []).stopsBefore .eval = false ∧
      (batch 64 [98] []).fetchInstr = .error (.decode (.invalidOpcode 98)) ∧
      after (batch 64 [98] []) (·.status) = some .faulted) ∧
    ((batch 64 [3, 9] []).Inv ∧ (batch 64 [3, 9] []).fetchInstr = .ok (.inp ⟨.position, 9⟩) ∧
      exec (.inp ⟨.position, 9⟩) (batch 64 [3, 9] []) =
        .next ((batch 64 [3, 9] []).raise .inputExhausted)) ∧
    ((batch 64 [109, 5] []).Inv ∧ (batch 64 [109, 5] []).fetchInstr = .ok (.arb ⟨.immediate, 5⟩) ∧
      ∃ s₁, exec (.arb ⟨.immediate, 5⟩) (batch 64 [109, 5] []) = .next s₁ ∧
        s₁.fault = (batch 64 [109, 5] []).fault) ∧
    ((piped 64 [104, 7] 0).Inv ∧ (piped 64 [104, 7] 0).port = .running .pipe ∧
      after (piped 64 [104, 7] 0) (·.port) = some (.returned (.output 7))) ∧
    (({ batch 64 [] [] with halt := true } : State).Inv ∧
      ({ batch 64 [] [] with halt := true } : State).status = .halted) ∧
    (({ batch 64 [] [] with fault := (Trap.inputExhausted).record 0, port := .idle } : State).Inv ∧
      ({ batch 64 [] [] with fault := (Trap.inputExhausted).record 0, port := .idle } : State).status =
        .faulted) ∧
    (∃ s', ({ batch 64 [] [] with halt := true, port := .idle } : State).issue .reset = .next s' ∧
      s'.status = .ready) ∧
    ∃ s', ({ batch 64 [] [] with halt := true, port := .idle } : State).issue (.loadCode [99]) = .next s' ∧
      s'.status = .halted := by
  refine ⟨⟨?_, ?_, ?_, ?_, ?_⟩, ⟨?_, ?_, ?_, ?_, ?_⟩, ⟨?_, ?_, rfl⟩, ⟨?_, ?_, ⟨_, rfl, ?_⟩⟩, ⟨?_, ?_, ?_⟩,
    ⟨?_, ?_⟩, ⟨?_, ?_⟩, ⟨_, rfl, ?_⟩, ⟨_, rfl, ?_⟩⟩ <;> decide

theorem witness_IoModeKeepsToItsOwnChannel :
    ((piped 64 [3, 9] 5).ioMode = .step ∧ ∃ s', step (piped 64 [3, 9] 5) = .next s') ∧
    ((batch 64 [104, 9] []).ioMode = .batch ∧ ∃ s', step (batch 64 [104, 9] []) = .next s') :=
  ⟨⟨by decide, _, rfl⟩, by decide, _, rfl⟩

/-- With the latch set, at an `IN` whose mode digit is illegal; with the latch clear at an `IN`; with the latch
set at another class, and just past memory. -/
theorem witness_ConsumeStopsAtTheSecondInput :
    (let s := { piped 64 [903, 9] 5 with port := .running (.consumeSingleInput true) };
      s.port = .running (.consumeSingleInput true) ∧ s.faulted = false ∧ s.halt = false ∧
      0 ≤ s.pc.toInt ∧ s.pc.toInt < s.cfg.memSize ∧ 0 ≤ (s.mem.read s.pc.toInt.toNat).toInt ∧
      (s.mem.read s.pc.toInt.toNat).toInt % 100 = 3) ∧
    (let s := { piped 64 [3, 9] 5 with port := .running (.consumeSingleInput false) };
      s.faulted = false ∧ s.halt = false ∧ s.fetchInstr = .ok (.inp ⟨.position, 9⟩) ∧
      after s (fun t => (t.mem.read 9, t.port)) = some (5, .running (.consumeSingleInput true))) ∧
    (let s := { piped 64 [104, 9] 5 with port := .running (.consumeSingleInput true) };
      s.faulted = false ∧ s.halt = false ∧ (s.mem.read s.pc.toInt.toNat).toInt % 100 = 4 ∧
      s.fetchInstr = .ok (.out ⟨.immediate, 9⟩)) ∧
    (let s := { piped 64 [3, 9] 5 with port := .running (.consumeSingleInput true), pc := 64 };
      s.faulted = false ∧ s.halt = false ∧ s.fetchInstr = .error (.outOfBoundsAddress 64)) := by
  refine ⟨?_, ⟨?_, ?_, ?_, ?_⟩, ⟨?_, ?_, ?_, ?_⟩, ⟨?_, ?_, ?_⟩⟩ <;> decide

/-- Each command returns: halted, with an output, at a second input, and with a fault. -/
theorem witness_RunCommandsReturnAtTheirStops :
    let m := fun program => ({ batch 64 program [] with port := .idle } : State)
    ((m [99]).runCommand 2 (.eval none)).map (·.2) = some .ok ∧
      ((m [104, 7]).runCommand 1 (.pipe 3)).map (·.2) = some (.output 7) ∧
      ((m [99]).runCommand 2 (.pipe 3)).map (·.2) = some .noOutput ∧
      ((m [3, 9, 3]).runCommand 2 (.consumeSingleInput 3)).map (·.2) = some .ok ∧
      (((m [3, 9]).runCommand 1 (.eval none)).map (·.2)).isSome = true := by
  refine ⟨?_, ?_, ?_, ?_, ?_⟩ <;> decide

theorem witness_MoreFuelGivesTheSameResult :
    ∃ r, ({ batch 64 [99] [] with port := .idle } : State).runCommand 2 (.eval none) = some r := ⟨_, rfl⟩

/-- Several statements about host commands ask for a Machine with no run in progress and no fault. -/
theorem witness_RunCommandsStageTheirInputs :
    State.reset.isRunning = false ∧ State.reset.faulted = false ∧ State.reset.Inv := by decide

/-- A program as long as memory, and one cell longer (`OverlongProgramIsRefused`). -/
theorem witness_LoadCodeChangesOnlyTheProgramCells :
    let s := State.new { Config.default with memSize := 3 }
    s.Inv ∧ s.isRunning = false ∧ ([104, 1, 99] : List Word).length ≤ s.cfg.memSize ∧
      s.cfg.memSize < ([104, 1, 99, 0] : List Word).length := by decide

/-- `ResetEqualsConstruction` from a halted Machine with a written memory. -/
theorem witness_ResetEqualsConstruction :
    ({ batch 64 [99] [] with halt := true, port := .returned .ok } : State).isRunning = false := by decide

theorem witness_ReadPortsAnswerTheState :
    let s := State.new { Config.default with memSize := 3 }
    s.isRunning = false ∧ s.readPort (.cell 2) = .next (.word 0) ∧
      s.readPort (.cell 3) = .fault (.outOfBoundsAddress 3) ∧
      s.readPort (.cell (-1)) = .fault (.outOfBoundsAddress (-1)) := by
  refine ⟨?_, rfl, rfl, rfl⟩
  decide

theorem witness_NoCommandDuringARun : (batch 64 [99] []).isRunning = true := by decide

theorem witness_MachinesAreIndependent :
    ∃ sys', System.stepAt [batch 64 [99] [], batch 64 [104, 1] []] 1 = .next sys' ∧
      sys'[0]? = some (batch 64 [99] []) := ⟨_, rfl, by decide⟩

theorem witness_ParseOfStringifyIsTheProgram : ([-9223372036854775808] : List Word) ≠ [] := by decide

/-- A text with commas at its ends, white space of two kinds around a token with a space inside, a token of
white space alone, and a bad token in the middle. -/
theorem witness_ParseFailsAtTheFirstBadToken :
    splitCommas [',', '1', ','] = [[], ['1'], []] ∧
      trimToken ['\n', ' ', '1', ' ', '2', '\t'] = ['1', ' ', '2'] ∧ trimToken [' ', ' '] = [] ∧
      isSpace '\x0b' = true ∧ isSpace '\x0e' = false ∧
      parse ['1', ',', 'x', ',', 'y'] = .error (.parseError 1) ∧ parse ['-', '0'] = .ok [0] := by
  refine ⟨?_, ?_, ?_, ?_, ?_, ?_, ?_⟩ <;> decide

/-- The ends of the range on both sides. -/
theorem witness_LiteralIsASignedDecimalInRange :
    readLiteral "9223372036854775807".toList = some 9223372036854775807 ∧
      readLiteral "9223372036854775808".toList = none ∧
      readLiteral "-9223372036854775808".toList = some (-9223372036854775808) ∧
      readLiteral "-9223372036854775809".toList = none ∧ isDigit '0' = true ∧ isDigit '9' = true ∧
      isDigit '/' = false ∧ isDigit ':' = false := by decide

/-- R298: a `pipe` end at an `OUT` is no faulted end, and a run in progress has not ended (log 26). -/
theorem test_ended_well : after (piped 64 [104, 7] 3) State.endedWell = some true ∧
    after (batch 64 [3, 9] []) State.endedWell = some false ∧
    (piped 64 [104, 7] 3).endedWell = false := by decide

end Sys2Proof.Tests
end

section
/-! PROOFS. 00_scope.md: storing an exact integer in 64 bits (R6, R8) and bounds-checked access to a cell
(R10, 20_memory.md R56, R57). -/

namespace Sys2Proof.Machine

/-! ## `wrap64` and congruence modulo `2^64` -/

/-- A word's value differs from the integer it wraps by a multiple of `2^64`. -/
theorem wrap64_toInt_emod (v : Int) : (wrap64 v).toInt % 2 ^ 64 = v % 2 ^ 64 := by
  rw [wrap64, BitVec.toInt_ofInt]
  exact Int.bmod_emod

/-- Congruent integers wrap to one word. -/
theorem wrap64_congr {u v : Int} (h : u % 2 ^ 64 = v % 2 ^ 64) : wrap64 u = wrap64 v := by
  apply BitVec.eq_of_toInt_eq
  rw [wrap64, wrap64, BitVec.toInt_ofInt, BitVec.toInt_ofInt, ← Int.emod_bmod u, ← Int.emod_bmod v]
  exact congrArg (Int.bmod · (2 ^ 64)) h

/-! ## A write to a cell and the reads after it -/

/-- `MemWrite` as the bounds of R56 write it. -/
theorem State.memWrite_eq (s : State) (a : Int) (v : Word) :
    s.memWrite a v = if 0 ≤ a ∧ a < (s.cfg.memSize : Int) then .ok (s.setCell a.toNat v)
      else .error (.outOfBoundsAddress a) := by
  simp only [State.memWrite, inBounds, decide_eq_true_eq]

/-- In bounds, the cell written is the cell read. -/
theorem State.memRead_setCell_same {s : State} (hm : s.mem.wf s.cfg.memSize = true) {a : Int}
    (ha : 0 ≤ a ∧ a < (s.cfg.memSize : Int)) (v : Word) : (s.setCell a.toNat v).memRead a = .ok v := by
  rw [State.memRead_eq, State.setCell_cfg, if_pos ha, State.setCell_mem, Memory.read_write_same hm]

/-- A write changes the read of no other address, in bounds or not. -/
theorem State.memRead_setCell_other (s : State) {a b : Int} (ha : 0 ≤ a) (hb : b ≠ a) (v : Word) :
    (s.setCell a.toNat v).memRead b = s.memRead b := by
  rw [State.memRead_eq, State.memRead_eq, State.setCell_cfg, State.setCell_mem]
  split
  · rw [Memory.read_write_other s.mem v (by omega)]
  · rfl

/-! ## The statements -/

/-- Settles O8: the range is `fits64_iff`; `wrap64` keeps the residue, and a word is the wrap of its own
value, so a word with that residue is `wrap64 v`. -/
theorem wrapIsTheUniqueCongruentWord : Obligations.WrapIsTheUniqueCongruentWord := by
  intro v
  refine ⟨fits64_iff v, ?_, fun w hw => ?_⟩
  · exact Int.emod_eq_emod_iff_emod_sub_eq_zero.1 (wrap64_toInt_emod v)
  · calc w = wrap64 w.toInt := (wrap64_toInt w).symm
      _ = wrap64 v := wrap64_congr (Int.emod_eq_emod_iff_emod_sub_eq_zero.2 hw)

/-- Settles O10: in bounds the write is `setCell`, and the reads after it are those of the memory written;
out of bounds both accesses answer the check's error. -/
theorem memReadAndMemWriteAreBoundsChecked : Obligations.MemReadAndMemWriteAreBoundsChecked := by
  rintro s a v ⟨-, hm, -⟩
  rw [State.memRead_eq, State.memWrite_eq]
  refine ⟨fun ha => ?_, fun ha => ?_⟩
  · rw [if_pos ha, if_pos ha]
    exact ⟨rfl, s.setCell a.toNat v, rfl, State.memRead_setCell_same hm ha v,
      fun b hb => State.memRead_setCell_other s ha.1 hb v, rfl⟩
  · rw [if_neg ha, if_neg ha]
    exact ⟨rfl, rfl⟩

end Sys2Proof.Machine
end

section
/-! PROOFS. 10_state.md: what a committed instruction, a step and a host command write of the state (R21 to
R33), and the invariant that they keep (R22, R26, R31, R32). -/

namespace Sys2Proof.Machine

/-! ## The instructions that commit

`phases_frame` says what they leave of memory; this says which registers they write and how. -/

/-- The ways an instruction that raises nothing leaves the state (46_host_interface.md R222, phase 6). -/
inductive Committed (s : State) (i : Instr) : State → Prop
  | stored (t : Nat) (v : Word) (harity : i.opcode.arity = 3) :
      Committed s i ((s.setCell t v).advance 4)
  | inputStored (t : Nat) (v : Word) (q : List Word) (hop : i.opcode = .inp) :
      Committed s i (((s.setCell t v).setInQ q).advance 2)
  | emitted (v : Word) (hop : i.opcode = .out) : Committed s i ((s.emit v).advance 2)
  | jumpedIfTrue (a b : Operand) (x y : Word) (hi : i = .jt a b) (hx : s.readOperand a = .ok x)
      (htaken : x ≠ 0) (hy : s.readOperand b = .ok y) : Committed s i (s.jump y)
  | jumpedIfFalse (a b : Operand) (x y : Word) (hi : i = .jf a b) (hx : s.readOperand a = .ok x)
      (htaken : x = 0) (hy : s.readOperand b = .ok y) : Committed s i (s.jump y)
  | fellThrough (harity : i.opcode.arity = 2) : Committed s i (s.advance 3)
  | rebased (r : Word) (hop : i.opcode = .arb) : Committed s i ((s.setRb r).advance 2)
  | halted (hi : i = .halt) : Committed s i s.setHalt

/-- The shape that `ADD`, `MUL`, `LT` and `EQ` share commits by a store. -/
theorem committed_of_binaryToCell {s s' : State} {i : Instr} {a b c : Operand}
    {f : Word → Word → Except Trap Word} (harity : i.opcode.arity = 3)
    (h : s.binaryToCell a b c f = .ok s') : Committed s i s' := by
  obtain ⟨x, y, t, r, -, -, -, -, rfl⟩ := State.binaryToCell_ok.1 h
  exact .stored t r harity

theorem committed_of_phases_ok {i : Instr} {s s' : State} (h : phases i s = .ok s') :
    Committed s i s' := by
  cases i with
  | add a b c => exact committed_of_binaryToCell rfl h
  | mul a b c => exact committed_of_binaryToCell rfl h
  | lt a b c => exact committed_of_binaryToCell rfl h
  | eq a b c => exact committed_of_binaryToCell rfl h
  | inp c =>
    obtain ⟨t, v, q, -, -, rfl⟩ := phases_inp_ok h
    exact .inputStored t v q rfl
  | out a =>
    obtain ⟨x, -, rfl⟩ := phases_out_ok h
    exact .emitted x rfl
  | jt a b =>
    obtain ⟨x, y, hx, hy, rfl⟩ := phases_jt_ok h
    split
    · next htaken => exact .jumpedIfTrue a b x y rfl hx (by rintro rfl; simp at htaken) hy
    · exact .fellThrough rfl
  | jf a b =>
    obtain ⟨x, y, hx, hy, rfl⟩ := phases_jf_ok h
    split
    · next htaken =>
      exact .jumpedIfFalse a b x y rfl hx (BitVec.eq_of_toInt_eq (of_decide_eq_true htaken)) hy
    · exact .fellThrough rfl
  | arb a =>
    obtain ⟨x, r, -, -, rfl⟩ := phases_arb_ok h
    exact .rebased r rfl
  | halt =>
    obtain rfl := phases_halt_ok h
    exact .halted rfl

/-- A register other than `PC` is written only by the instruction whose rule names it. -/
theorem Committed.registers {s s' : State} {i : Instr} (h : Committed s i s') :
    (i.opcode ≠ .arb → s'.rb = s.rb) ∧ (i.opcode ≠ .halt → s'.halt = s.halt) ∧
      (i.opcode ≠ .inp → s'.inQ = s.inQ) ∧
      (i.opcode ≠ .out → s'.outSeq = s.outSeq ∧ s'.outSlot = s.outSlot) := by
  cases h with
  | stored | jumpedIfTrue | jumpedIfFalse | fellThrough => simp
  | inputStored t v q hop => simp [hop]
  | emitted v hop => simp [hop]
  | rebased r hop => simp [hop]
  | halted hi => simp [hi, Instr.opcode]

/-- `PC` after a commit: kept by `HALT`, a jump's target, or moved past the instruction's cells. -/
theorem Committed.pc_cases {s s' : State} {i : Instr} (h : Committed s i s') :
    (i = .halt ∧ s'.pc = s.pc) ∨
    (∃ a b x, (i = .jt a b ∧ s.readOperand a = .ok x ∧ x ≠ 0 ∧ s.readOperand b = .ok s'.pc) ∨
      (i = .jf a b ∧ s.readOperand a = .ok x ∧ x = 0 ∧ s.readOperand b = .ok s'.pc)) ∨
    (i ≠ .halt ∧ s'.pc = s.pc + BitVec.ofNat 64 (1 + i.opcode.arity)) := by
  have advanced {n : Nat} (hn : i.opcode.arity = n + 1)
      (hpc : s'.pc = s.pc + BitVec.ofNat 64 (n + 2)) :
      i ≠ .halt ∧ s'.pc = s.pc + BitVec.ofNat 64 (1 + i.opcode.arity) := by
    refine ⟨?_, by rw [hpc, hn, Nat.add_comm 1]⟩
    rintro rfl
    simp [Instr.opcode, Opcode.arity] at hn
  cases h with
  | stored t v harity => exact .inr (.inr (advanced harity rfl))
  | inputStored t v q hop => exact .inr (.inr (advanced (by rw [hop]; rfl) rfl))
  | emitted v hop => exact .inr (.inr (advanced (by rw [hop]; rfl) (by simp)))
  | jumpedIfTrue a b x y hi hx htaken hy => exact .inr (.inl ⟨a, b, x, .inl ⟨hi, hx, htaken, hy⟩⟩)
  | jumpedIfFalse a b x y hi hx htaken hy => exact .inr (.inl ⟨a, b, x, .inr ⟨hi, hx, htaken, hy⟩⟩)
  | fellThrough harity => exact .inr (.inr (advanced harity rfl))
  | rebased r hop => exact .inr (.inr (advanced (by rw [hop]; rfl) rfl))
  | halted hi => exact .inl ⟨hi, rfl⟩

/-- Settles O27: an error changes `FAULT` alone; a commit changes memory by `phases_frame`, and a register
by `Committed.registers`. -/
theorem frameOfEveryInstruction : Obligations.FrameOfEveryInstruction := by
  intro i s s' h
  rcases exec_next h with hok | ⟨t, -, rfl⟩
  · obtain ⟨hcfg, hslot, hfault, hport, hmem⟩ := phases_frame hok
    obtain ⟨hrb, hhalt, hinQ, hout⟩ := (committed_of_phases_ok hok).registers
    refine ⟨fun a ha => ?_, hcfg, hslot, hport, hrb, hhalt, hinQ, hout, fun hne => absurd hfault hne⟩
    rcases hmem with hmem | ⟨t, v, ht, hmem⟩
    · rw [hmem]
    · rw [hmem, Memory.read_write_other s.mem v]
      rintro rfl
      exact ha ht
  · simp [State.raise]

/-! ## `PC` after a fetch -/

/-- The cells of a fetched instruction all lie in memory. -/
theorem State.fetchInstr_inBounds {s : State} {i : Instr} (h : s.fetchInstr = .ok i) :
    0 ≤ s.pc.toInt ∧ s.pc.toInt + i.opcode.arity < s.cfg.memSize := by
  obtain ⟨d, raw, hpc, -, hraw, rfl⟩ := State.fetchInstr_ok h
  obtain ⟨hlen, hcells⟩ := State.fetchArgs_ok hraw
  rw [inBounds_iff] at hpc
  rw [DecodedCell.toInstr_opcode]
  rcases Nat.eq_zero_or_pos d.op.arity with h0 | hpos
  · omega
  · have hlast := (hcells (d.op.arity - 1) (by omega)).1
    rw [inBounds_iff] at hlast
    omega

/-- The advance past a fetched instruction does not overflow (R22). -/
theorem State.advance_past_fetched {s : State} {i : Instr} (hcfg : s.cfg.wf = true)
    (h : s.fetchInstr = .ok i) :
    (s.pc + BitVec.ofNat 64 (1 + i.opcode.arity)).toInt = s.pc.toInt + 1 + i.opcode.arity := by
  obtain ⟨hpc, hend⟩ := State.fetchInstr_inBounds h
  have hsize : s.cfg.memSize ≤ 9223372036854775807 := of_decide_eq_true hcfg
  have harity := i.opcode.arity_le
  rw [advance_toInt (by omega) hpc (by push_cast; omega)]
  push_cast
  omega

/-- Settles O43: by the ways `PC` changes at a commit, of which the advance is exact. -/
theorem pcChangesInThreeWays : Obligations.PcChangesInThreeWays := by
  rintro s s' i ⟨hcfg, -⟩ hi - he hf
  rcases exec_next he with hok | ⟨t, -, rfl⟩
  · rw [← State.advance_past_fetched hcfg hi]
    simpa only [BitVec.toInt_inj] using (committed_of_phases_ok hok).pc_cases
  · simp at hf

/-! ## What a step and a host command can do -/

/-- A step changes `FAULT` and the command in progress alone, or it executes the instruction it fetches, of a
Machine that has not halted, and then changes the command in progress alone. -/
theorem step_eq_or_exec {s s' : State} (h : step s = .next s') :
    (∃ f p, s' = { s with fault := f, port := p }) ∨
    ∃ i s₁ p, s.halt = false ∧ s.fetchInstr = .ok i ∧ exec i s = .next s₁ ∧
      s' = { s₁ with port := p } := by
  rcases step_cases h with ⟨-, rfl⟩ | ⟨c, -, ⟨-, rfl⟩ | ⟨-, -, rfl⟩ | ⟨-, -, -, rfl⟩ |
    ⟨-, hhalt, -, ⟨t, -, rfl⟩ | ⟨i, s₁, hi, he, rfl⟩⟩⟩
  · exact .inl ⟨s'.fault, s'.port, rfl⟩
  · exact .inl ⟨_, _, rfl⟩
  · exact .inl ⟨_, _, rfl⟩
  · exact .inl ⟨_, _, rfl⟩
  · exact .inl ⟨_, _, rfl⟩
  · exact .inr ⟨i, s₁, _, hhalt, hi, he, s₁.afterInstr_port_only c i⟩

/-- A run command that stages its input changes the input and the port, and with a fault recorded it does
not run (R224 to R227). -/
theorem State.startRun_staged {s : State} {stage : State → State} (c : RunCommand) {q : List Word}
    {x : Word} (hstage : stage s = { s with inQ := q, inSlot := x }) :
    ((s.startRun c stage).isRunning && (s.startRun c stage).faulted) = false ∧
      ∃ q' x' p, s.startRun c stage = { s with inQ := q', inSlot := x', port := p } := by
  unfold State.startRun
  split
  · exact ⟨rfl, _, _, _, rfl⟩
  next hf =>
  rw [hstage]
  exact ⟨by simpa [State.isRunning, State.faulted] using hf, _, _, _, rfl⟩

/-- Everything a host command that is carried out can do: `reset`, a program loaded, or a run command
started (R220, R221). -/
theorem State.issue_cases {s s' : State} {c : HostCommand} (h : s.issue c = .next s') :
    (c = .reset ∧ s' = State.new s.cfg) ∨
    (∃ program, c = .loadCode program ∧ program.length ≤ s.cfg.memSize ∧
      s' = { s with mem := s.mem.writeFrom 0 program }) ∨
    (c ≠ .reset ∧ (s'.isRunning && s'.faulted) = false ∧
      ∃ q x p, s' = { s with inQ := q, inSlot := x, port := p }) := by
  unfold State.issue at h
  split at h
  · simp at h
  cases c with
  | reset => exact .inl ⟨rfl, (Host.Outcome.next.inj h).symm⟩
  | loadCode program =>
    dsimp only [State.loadCode] at h
    split at h
    · simp at h
    next hlen =>
    exact .inr (.inl ⟨program, rfl, Nat.le_of_not_lt hlen, (Host.Outcome.next.inj h).symm⟩)
  | eval inputs | pipe x | consumeSingleInput x =>
    obtain rfl := Host.Outcome.next.inj h
    exact .inr (.inr ⟨by simp, State.startRun_staged _ rfl⟩)

/-! ## The halt flag and the relative base -/

theorem Instr.eq_halt_of_opcode {i : Instr} (h : i.opcode = .halt) : i = .halt := by
  cases i with
  | halt => rfl
  | _ => cases h

theorem Instr.eq_arb_of_opcode {i : Instr} (h : i.opcode = .arb) : ∃ a, i = .arb a := by
  cases i with
  | arb a => exact ⟨a, rfl⟩
  | _ => cases h

/-- Settles O40: a step that changes the flag executes an instruction that is `HALT` by its frame, from
`HALT = 0`; the host commands by their cases. -/
theorem onlyHaltSetsAndOnlyResetClearsTheFlag : Obligations.OnlyHaltSetsAndOnlyResetClearsTheFlag := by
  refine ⟨fun s s' h => ?_, fun s s' c h => ?_⟩
  · rcases step_eq_or_exec h with ⟨f, p, rfl⟩ | ⟨i, s₁, p, hhalt, hi, he, rfl⟩
    · exact ⟨id, fun h0 h1 => absurd (h0.symm.trans h1) (by decide)⟩
    · obtain ⟨-, -, -, -, -, hkept, -⟩ := frameOfEveryInstruction i s s₁ he
      refine ⟨fun h1 => absurd (hhalt.symm.trans h1) (by decide), fun h0 h1 => ?_⟩
      have hop : i.opcode = .halt := by
        by_contra hne
        exact absurd ((hkept hne).symm.trans h1) (by simp [h0])
      rw [hi, Instr.eq_halt_of_opcode hop]
  · rcases State.issue_cases h with ⟨rfl, rfl⟩ | ⟨p, rfl, -, rfl⟩ | ⟨hc, -, q, x, p, rfl⟩
    · simp
    · simp
    · simp [hc]

/-- Settles O41: a step that changes `RB` executes an instruction that is `ARB` by its frame; the host
commands by their cases. -/
theorem onlyArbWritesTheRelativeBase : Obligations.OnlyArbWritesTheRelativeBase := by
  refine ⟨fun s s' h hne => ?_, fun s s' c h => ?_⟩
  · rcases step_eq_or_exec h with ⟨f, p, rfl⟩ | ⟨i, s₁, p, -, hi, he, rfl⟩
    · exact absurd rfl hne
    · obtain ⟨-, -, -, -, hkept, -⟩ := frameOfEveryInstruction i s s₁ he
      have hop : i.opcode = .arb := by
        by_contra h'
        exact hne (hkept h')
      obtain ⟨a, rfl⟩ := Instr.eq_arb_of_opcode hop
      exact ⟨a, hi⟩
  · rcases State.issue_cases h with ⟨rfl, rfl⟩ | ⟨p, rfl, -, rfl⟩ | ⟨hc, -, q, x, p, rfl⟩
    · simp
    · simp
    · simp [hc]

/-! ## The invariant -/

/-- The part of `State.Inv` that does not look at the command in progress: it also holds between an
instruction that has raised and the end of its command. -/
abbrev State.Sound (s : State) : Prop :=
  s.cfg.wf = true ∧ s.mem.wf s.cfg.memSize = true ∧ s.fault.wf = true ∧ (s.halt && s.faulted) = false

theorem State.Inv.sound {s : State} (h : s.Inv) : s.Sound := by
  obtain ⟨hcfg, hmem, hfault, hhalt, -⟩ := h
  exact ⟨hcfg, hmem, hfault, hhalt⟩

/-- A sound state in which no command runs with a fault recorded meets the invariant, whatever the port. -/
theorem State.Sound.inv_withPort {s : State} (h : s.Sound) {p : Port}
    (hp : (({ s with port := p } : State).isRunning && s.faulted) = false) :
    ({ s with port := p } : State).Inv := by
  obtain ⟨hcfg, hmem, hfault, hhalt⟩ := h
  exact ⟨hcfg, hmem, hfault, hhalt, hp⟩

/-- The end of a command leaves a state with the invariant. -/
theorem State.Sound.respond_inv {s : State} (h : s.Sound) (r : Response) : (s.respond r).Inv :=
  h.inv_withPort rfl

/-- What the run loop does after an instruction restores the invariant: a fault ends the command. -/
theorem State.Sound.afterInstr_inv {s : State} (h : s.Sound) (c : RunCommand) (i : Instr) :
    (s.afterInstr c i).Inv := by
  cases hf : s.faulted with
  | true => rw [State.afterInstr_of_faulted c i hf]; exact h.respond_inv _
  | false => rw [State.afterInstr_port_only]; exact h.inv_withPort (by simp [hf])

/-- Raising an error with a legal record, which only a Machine that has not halted does. -/
theorem State.Sound.raise {s : State} (h : s.Sound) (hhalt : s.halt = false) {t : Trap}
    (ht : (t.record s.pc).wf = true) : (s.raise t).Sound := by
  obtain ⟨hcfg, hmem, -, -⟩ := h
  exact ⟨hcfg, hmem, ht, by simp [hhalt]⟩

/-- A commit, its store inside memory, with no fault recorded. -/
theorem State.Sound.commit {s s' : State} {i : Instr} (h : s.Sound) (hf : s.faulted = false)
    (hok : phases i s = .ok s') : s'.Sound := by
  obtain ⟨hcfg, hmem, hfault, -⟩ := h
  obtain ⟨ecfg, -, efault, -, emem⟩ := phases_frame hok
  refine ⟨by rw [ecfg, hcfg], ?_, by rw [efault, hfault], ?_⟩
  · rcases emem with emem | ⟨t, v, ht, emem⟩
    · rw [ecfg, emem, hmem]
    · rw [ecfg, emem, Memory.write_wf hmem v (storeAddress_lt ht)]
  · simp only [State.faulted, efault] at hf ⊢
    rw [hf, Bool.and_false]

/-- Settles O33: each way a step can go keeps `Sound`, and how the command ends or goes on gives the rest. -/
theorem everyStepKeepsTheInvariant : Obligations.EveryStepKeepsTheInvariant := by
  intro s s' hinv h
  have hs := hinv.sound
  rcases step_cases h with ⟨-, rfl⟩ | ⟨c, -, ⟨-, rfl⟩ | ⟨-, -, rfl⟩ | ⟨-, -, -, rfl⟩ |
    ⟨hf, hhalt, -, ⟨t, ht, rfl⟩ | ⟨i, s₁, hi, he, rfl⟩⟩⟩
  · exact hinv
  · exact hs.respond_inv _
  · exact hs.respond_inv _
  · exact hs.respond_inv _
  · exact (hs.raise hhalt (record_wf_of_fetch s.pc ht)).respond_inv _
  · rcases exec_next he with hok | ⟨t, ht, rfl⟩
    · exact (hs.commit hf hok).afterInstr_inv c i
    · have hplain := phases_error_plain (State.fetchInstr_wf hi) ht
      exact (hs.raise hhalt (Trap.record_wf_of_plain s.pc hplain)).afterInstr_inv c i

theorem State.new_inv {c : Config} (h : c.wf = true) : (State.new c).Inv :=
  ⟨h, Memory.nil_wf _, rfl, rfl, rfl⟩

/-- Settles O34: memory is empty, and neither flag nor fault is set. -/
theorem newMachineMeetsTheInvariant : Obligations.NewMachineMeetsTheInvariant :=
  ⟨State.new_inv (by decide), fun _ => State.new_inv⟩

/-- Every host command that is carried out keeps the invariant. -/
theorem State.issue_inv {s s' : State} {c : HostCommand} (hinv : s.Inv) (h : s.issue c = .next s') :
    s'.Inv := by
  obtain ⟨hcfg, hmem, hfault, hhalt, hrun⟩ := hinv
  rcases State.issue_cases h with ⟨-, rfl⟩ | ⟨p, -, hlen, rfl⟩ | ⟨-, hrun', q, x, p, rfl⟩
  · exact State.new_inv hcfg
  · exact ⟨hcfg, Memory.writeFrom_wf hmem (by simpa using hlen), hfault, hhalt, hrun⟩
  · exact ⟨hcfg, hmem, hfault, hhalt, hrun'⟩

/-- Settles O35: by induction on how the state is reached. -/
theorem everyReachableStateMeetsTheInvariant : Obligations.EveryReachableStateMeetsTheInvariant := by
  intro s hs
  induction hs with
  | new c hc => exact State.new_inv hc
  | issue c _ h ih => exact State.issue_inv ih h
  | step _ h ih => exact everyStepKeepsTheInvariant _ _ ih h

end Sys2Proof.Machine
end

section
/-! PROOFS. 30_encoding.md: the decoder and the encoder (R70 to R79, R84, R85). -/

namespace Sys2Proof

open Machine

/-! ## The cells of an instruction (R70, R83) -/

theorem Instr.operands_length (i : Instr) : i.operands.length = i.opcode.arity := by
  cases i <;> rfl

/-- An instruction cell that decodes, its argument cells and more cells decode to the instruction and the
cells after it. -/
theorem decode_cons_append {p : ExcessPolicy} {cell : Word} {d : DecodedCell} {raw : List Word}
    (hcell : decodeCell p cell = .ok d) (hraw : raw.length = d.op.arity) (rest : List Word) :
    decode p (cell :: (raw ++ rest)) = .ok (d.toInstr raw, rest) := by
  simp only [decode, hcell]
  rw [if_neg (by simp [hraw]), ← hraw, List.take_left, List.drop_left]

/-- The cells that decode are such a list. -/
theorem decode_ok {p : ExcessPolicy} {cells rest : List Word} {i : Instr}
    (h : decode p cells = .ok (i, rest)) :
    ∃ cell raw d, cells = cell :: (raw ++ rest) ∧ decodeCell p cell = .ok d ∧
      raw.length = d.op.arity ∧ i = d.toInstr raw := by
  cases cells with
  | nil => simp [decode] at h
  | cons cell tail =>
    simp only [decode] at h
    split at h
    · simp at h
    next d hcell =>
    split at h
    · simp at h
    next hlen =>
    obtain ⟨rfl, rfl⟩ := Prod.mk.inj (Except.ok.inj h)
    exact ⟨cell, tail.take d.op.arity, d, by rw [List.take_append_drop], hcell,
      List.length_take_of_le (Nat.le_of_not_lt hlen), rfl⟩

/-- Settles O1: the instruction cell decodes by `decodeCell_encode`, and the instruction is rebuilt from its
class, its modes and its argument cells. -/
theorem decodeOfEncodeIsTheInstruction : Obligations.DecodeOfEncodeIsTheInstruction := by
  intro p i rest hwf
  have h := decode_cons_append (decodeCell_encode p i hwf) (raw := i.operands.map Operand.raw)
    (by rw [List.length_map, i.operands_length]) rest
  rwa [toInstr_of] at h

/-! ## The encoding of what the decoder answers (R85) -/

/-- The arguments of the instruction of a decoded cell. -/
theorem DecodedCell.toInstr_operands (d : DecodedCell) (raw : List Word) :
    (d.toInstr raw).operands = (List.range d.op.arity).map fun k => d.operand raw (k + 1) := by
  obtain ⟨op, modes⟩ := d
  cases op <;> rfl

/-- Its argument cells are those it was built from. -/
theorem DecodedCell.toInstr_raw {d : DecodedCell} {raw : List Word} (h : raw.length = d.op.arity) :
    (d.toInstr raw).operands.map Operand.raw = raw := by
  rw [d.toInstr_operands]
  refine List.ext_getElem (by simp [h]) fun k _ hk => ?_
  simp [DecodedCell.operand, hk]

/-- The digit that the mode number `k` of a list stands for, counted from 0; 0 where there is none (R85). -/
def modeDigitAt (modes : List Mode) (k : Nat) : Nat := (modes[k]?.map Mode.digit).getD 0

theorem modeDigitAt_of_lt {modes : List Mode} {k : Nat} (h : k < modes.length) :
    modeDigitAt modes k = modes[k].digit := by
  simp [modeDigitAt, h]

theorem modeDigitAt_of_length_le {modes : List Mode} {k : Nat} (h : modes.length ≤ k) :
    modeDigitAt modes k = 0 := by
  simp [modeDigitAt, h]

theorem DecodedCell.toInstr_modeDigit {d : DecodedCell} (h : d.modes.length = d.op.arity)
    (raw : List Word) (k : Nat) : (d.toInstr raw).modeDigit (k + 1) = modeDigitAt d.modes k := by
  rcases Nat.lt_or_ge k d.op.arity with hk | hk
  · rw [modeDigitAt_of_lt (h ▸ hk)]
    simp [Instr.modeDigit, d.toInstr_operands, DecodedCell.operand, h, hk]
  · rw [modeDigitAt_of_length_le (h ▸ hk)]
    simp [Instr.modeDigit, d.toInstr_operands, hk]

/-- A number has no digit other than 0 at or above a power of ten it is below. -/
theorem digit_eq_zero_of_lt {v n k : Nat} (hv : v < 10 ^ n) (hk : n ≤ k) : digit v k = 0 := by
  rw [digit, Nat.div_eq_of_lt (hv.trans_le (Nat.pow_le_pow_right (by decide) hk))]

/-- A number of five digits is the sum that R85 writes. -/
theorem eq_sum_of_digits {v : Nat} (h : v < 10 ^ 5) :
    v = v % 100 + 100 * digit v 2 + 1000 * digit v 3 + 10000 * digit v 4 := by
  simp only [digit]
  omega

/-- Under the `fault` policy an accepted cell has no digit above its modes (R78). -/
theorem toNat_lt_of_decodeCell_fault {cell : Word} {d : DecodedCell}
    (h : decodeCell .fault cell = .ok d) : cell.toInt.toNat < 10 ^ (2 + d.op.arity) := by
  obtain ⟨-, -, -, -, hexcess, -⟩ := decodeCell_ok h
  exact (Nat.div_eq_zero_iff_lt (by positivity)).1 (hexcess rfl)

/-- Under the `fault` policy every digit above the opcode is that of a mode, or 0. -/
theorem digit_of_decodeCell_fault {cell : Word} {d : DecodedCell} (h : decodeCell .fault cell = .ok d)
    (k : Nat) : digit cell.toInt.toNat (2 + k) = modeDigitAt d.modes k := by
  obtain ⟨-, -, hlen, hdigits, -⟩ := decodeCell_ok h
  rcases Nat.lt_or_ge k d.modes.length with hk | hk
  · rw [hdigits k hk, modeDigitAt_of_lt hk]
  · rw [modeDigitAt_of_length_le hk, digit_eq_zero_of_lt (toNat_lt_of_decodeCell_fault h) (by omega)]

/-- Under the `fault` policy the number in a cell is the one its instruction is encoded with. -/
theorem cellNumber_of_decodeCell_fault {cell : Word} {d : DecodedCell}
    (h : decodeCell .fault cell = .ok d) (raw : List Word) :
    (d.toInstr raw).cellNumber = cell.toInt.toNat := by
  obtain ⟨-, hop, hlen, -⟩ := decodeCell_ok h
  have harity : 2 + d.op.arity ≤ 5 := Nat.add_le_add_left d.op.arity_le 2
  have hv : cell.toInt.toNat < 10 ^ 5 :=
    (toNat_lt_of_decodeCell_fault h).trans_le (Nat.pow_le_pow_right (by decide) harity)
  have hmode (k : Nat) : (d.toInstr raw).modeDigit (k + 1) = digit cell.toInt.toNat (2 + k) :=
    (DecodedCell.toInstr_modeDigit hlen raw k).trans (digit_of_decodeCell_fault h k).symm
  calc (d.toInstr raw).cellNumber
      = cell.toInt.toNat % 100 + 100 * digit cell.toInt.toNat 2 + 1000 * digit cell.toInt.toNat 3
          + 10000 * digit cell.toInt.toNat 4 := by
        rw [Instr.cellNumber, DecodedCell.toInstr_opcode, hop, hmode 0, hmode 1, hmode 2]
    _ = cell.toInt.toNat := (eq_sum_of_digits hv).symm

/-- A cell that is not negative is the word of its number. -/
theorem ofNat_toInt_toNat {cell : Word} (h : 0 ≤ cell.toInt) :
    BitVec.ofNat 64 cell.toInt.toNat = cell := by
  rw [← BitVec.ofInt_natCast, Int.toNat_of_nonneg h, BitVec.ofInt_toInt]

/-- Settles O2: the cells accepted are an instruction cell and its argument cells, and under `fault` the
number in the instruction cell is determined by the opcode and the modes. -/
theorem acceptedCellsAreTheEncoding : Obligations.AcceptedCellsAreTheEncoding := by
  intro cells rest i h
  obtain ⟨cell, raw, d, rfl, hcell, hraw, rfl⟩ := decode_ok h
  obtain ⟨hnonneg, -⟩ := decodeCell_ok hcell
  refine ⟨toInstr_wf raw hcell, ?_⟩
  rw [encode, cellNumber_of_decodeCell_fault hcell raw, ofNat_toInt_toNat hnonneg,
    DecodedCell.toInstr_raw hraw, List.cons_append]

end Sys2Proof
end

section
/-! PROOFS. 30_encoding.md: which cells the decoder refuses, with which error (R75 to R79, R84), and the
operands of a decoded instruction (R80, R81). -/

namespace Sys2Proof

open Machine

/-! ## The opcode check (R76) -/

theorem Opcode.ofNumber_eq_none_iff {n : Nat} :
    Opcode.ofNumber n = none ↔ n ∉ ([1, 2, 3, 4, 5, 6, 7, 8, 9, 99] : List Nat) := by
  constructor
  · rintro h hn
    fin_cases hn <;> simp [Opcode.ofNumber] at h
  · intro h
    rw [Option.eq_none_iff_forall_ne_some]
    intro op hop
    rw [Opcode.ofNumber_some hop] at h
    cases op <;> simp [Opcode.number] at h

/-- The opcode check of R76 on the cell as the integer it is. -/
theorem ofNumber_toInt_eq_none_iff {cell : Word} (h : 0 ≤ cell.toInt) :
    Opcode.ofNumber (cell.toInt.toNat % 100) = none ↔
      cell.toInt % 100 ∉ ([1, 2, 3, 4, 5, 6, 7, 8, 9, 99] : List Int) := by
  have hcast : cell.toInt % 100 = ((cell.toInt.toNat % 100 : Nat) : Int) := by omega
  rw [Opcode.ofNumber_eq_none_iff, hcast]
  simp only [List.mem_cons, List.not_mem_nil, or_false]
  norm_cast

theorem decodeCell_of_neg (p : ExcessPolicy) {cell : Word} (h : cell.toInt < 0) :
    decodeCell p cell = .error (.invalidOpcode cell) := if_pos h

theorem decodeCell_of_no_opcode (p : ExcessPolicy) {cell : Word}
    (h : Opcode.ofNumber (cell.toInt.toNat % 100) = none) :
    decodeCell p cell = .error (.invalidOpcode cell) := by
  unfold decodeCell
  split
  · rfl
  · rw [h]

/-- A cell with an opcode goes on to the checks of its digits (R75). -/
theorem decodeCell_of_opcode (p : ExcessPolicy) {cell : Word} {op : Opcode} (h0 : 0 ≤ cell.toInt)
    (hop : Opcode.ofNumber (cell.toInt.toNat % 100) = some op) :
    decodeCell p cell = (do
      let modes ← decodeModes cell cell.toInt.toNat 1 op.arity
      checkExcess p cell cell.toInt.toNat op.arity
      checkWriteModes cell modes op.writeSlots
      .ok { op := op, modes := modes }) := by
  unfold decodeCell
  rw [if_neg (not_lt.2 h0), hop]

/-- Settles O4: the two checks raise it, and by `decodeCell_error` no later check does. -/
theorem invalidOpcodeExactly : Obligations.InvalidOpcodeExactly := by
  intro p cell
  constructor
  · intro h
    rcases lt_or_ge cell.toInt 0 with hneg | h0
    · exact .inl hneg
    rcases decodeCell_error h with ⟨-, hneg | hnone⟩ | ⟨op, -, -, ⟨j, -, -, h⟩ | h | ⟨i, -, h⟩⟩
    · exact .inl hneg
    · exact .inr ((ofNumber_toInt_eq_none_iff h0).1 hnone)
    all_goals cases h
  · rintro (hneg | hnone)
    · exact decodeCell_of_neg p hneg
    · rcases lt_or_ge cell.toInt 0 with hneg | h0
      · exact decodeCell_of_neg p hneg
      · exact decodeCell_of_no_opcode p ((ofNumber_toInt_eq_none_iff h0).2 hnone)

/-! ## The mode digits (R77) -/

/-- The first illegal mode digit is the one reported. -/
theorem decodeModes_of_illegal {cell : Word} {v n i : Nat} (hi : 1 ≤ i) (hn : i ≤ n)
    (hillegal : 3 ≤ digit v (1 + i)) (hlower : ∀ k, 1 ≤ k → k < i → digit v (1 + k) ≤ 2) :
    decodeModes cell v 1 n = .error (.invalidAddressingMode cell i (digit v (1 + i))) := by
  cases hd : decodeModes cell v 1 n with
  | ok ms =>
    obtain ⟨hlen, hdigits⟩ := decodeModes_ok hd
    have hlegal := hdigits (i - 1) (by omega)
    rw [Nat.add_sub_cancel' hi] at hlegal
    have := Mode.digit_le ms[i - 1]
    omega
  | error e =>
    obtain ⟨j, hj, -, hillegal', hlower', rfl⟩ := decodeModes_error hd
    rcases Nat.lt_trichotomy i j with h | rfl | h
    · have := hlower' i hi h
      omega
    · rfl
    · have := hlower j hj h
      omega

/-- Settles O5: the mode digits are the first check after the opcode. -/
theorem invalidModeDigitIsReportedAtItsArgument :
    Obligations.InvalidModeDigitIsReportedAtItsArgument := by
  intro p cell op i h0 hop hi hn hillegal hlower
  rw [decodeCell_of_opcode p h0 hop, decodeModes_of_illegal hi hn hillegal hlower, error_bind]

/-! ## Cells with legal mode digits -/

/-- `ms` are the modes that the digits of `v` name for the arguments of `op` (R71). -/
def ModesOf (op : Opcode) (v : Nat) (ms : List Mode) : Prop :=
  ms.length = op.arity ∧ ∀ k (hk : k < ms.length), digit v (2 + k) = (ms[k]).digit

theorem exists_modesOf {op : Opcode} {v : Nat}
    (h : ∀ k, 1 ≤ k → k ≤ op.arity → digit v (1 + k) ≤ 2) : ∃ ms, ModesOf op v ms := by
  obtain ⟨ms, hms⟩ := modes_of_legal (cell := 0) (v := v) (n := op.arity) (i := 1)
    fun k h1 h2 => h k h1 (by omega)
  obtain ⟨hlen, hdigits⟩ := decodeModes_ok hms
  exact ⟨ms, hlen, fun k hk => by rw [← hdigits k hk]; congr 1; omega⟩

theorem ModesOf.decodeModes {op : Opcode} {v : Nat} {ms : List Mode} (h : ModesOf op v ms) (cell : Word) :
    decodeModes cell v 1 op.arity = .ok ms := by
  obtain ⟨hlen, hdigits⟩ := h
  exact decodeModes_of_legal hlen fun k hk => by rw [← hdigits k hk]; congr 1; omega

theorem writeSlot_le_arity {op : Opcode} {i : Nat} (h : i ∈ op.writeSlots) : 1 ≤ i ∧ i ≤ op.arity := by
  cases op <;> simp [Opcode.writeSlots, Opcode.arity] at h ⊢ <;> omega

/-- A class has at most one write target. -/
theorem writeSlots_unique {op : Opcode} {i j : Nat} (hi : i ∈ op.writeSlots) (hj : j ∈ op.writeSlots) :
    i = j := by
  cases op <;> simp [Opcode.writeSlots] at hi hj <;> omega

/-- The digit 1 is the mode Immediate (R74). -/
theorem ModesOf.immediate_iff {op : Opcode} {v i : Nat} {ms : List Mode} (h : ModesOf op v ms)
    (hi : i ∈ op.writeSlots) : ms[i - 1]? = some .immediate ↔ digit v (1 + i) = 1 := by
  obtain ⟨hlen, hdigits⟩ := h
  obtain ⟨h1, hn⟩ := writeSlot_le_arity hi
  have hk : i - 1 < ms.length := by omega
  have hdigit := hdigits (i - 1) hk
  rw [show 2 + (i - 1) = 1 + i by omega] at hdigit
  rw [List.getElem?_eq_getElem hk, Option.some.injEq, hdigit]
  cases ms[i - 1] <;> simp [Mode.digit]

/-- With legal mode digits and no excess digit that the policy looks at, the write-mode check is what is
left of the decode. -/
theorem decodeCell_of_modesOf {p : ExcessPolicy} {cell : Word} {op : Opcode} {ms : List Mode}
    (h0 : 0 ≤ cell.toInt) (hop : Opcode.ofNumber (cell.toInt.toNat % 100) = some op)
    (hms : ModesOf op cell.toInt.toNat ms) (hx : p = .fault → cell.toInt.toNat < 10 ^ (2 + op.arity)) :
    decodeCell p cell =
      (checkWriteModes cell ms op.writeSlots).map fun _ => { op := op, modes := ms } :=
  decodeCell_of_legal h0 (Opcode.ofNumber_some hop) hms.1 hms.2 fun hp => Nat.div_eq_of_lt (hx hp)

/-- What such a cell decodes to: its class and modes, unless a write target is Immediate (R79). -/
theorem decodeCell_eq_ok_iff {p : ExcessPolicy} {cell : Word} {op : Opcode} {ms : List Mode}
    (h0 : 0 ≤ cell.toInt) (hop : Opcode.ofNumber (cell.toInt.toNat % 100) = some op)
    (hms : ModesOf op cell.toInt.toNat ms) (hx : p = .fault → cell.toInt.toNat < 10 ^ (2 + op.arity))
    (d : DecodedCell) : decodeCell p cell = .ok d ↔
      (∀ i ∈ op.writeSlots, ms[i - 1]? ≠ some .immediate) ∧ d = { op := op, modes := ms } := by
  rw [decodeCell_of_modesOf h0 hop hms hx, ← checkWriteModes_ok (cell := cell)]
  cases checkWriteModes cell ms op.writeSlots with
  | ok => simp [Except.map, eq_comm]
  | error e => simp [Except.map]

/-! ## Excess digits (R78) -/

/-- A number with no digit but 0 at or above a power of ten is below it. -/
theorem lt_pow_of_digits_eq_zero {v n : Nat} (h : ∀ k, n ≤ k → digit v k = 0) : v < 10 ^ n := by
  by_contra hv
  have hpos : v ≠ 0 := by
    rintro rfl
    exact hv (by positivity)
  have hlog : n ≤ Nat.log 10 v := Nat.le_log_of_pow_le (by decide) (not_lt.1 hv)
  have hlow : 10 ^ Nat.log 10 v ≤ v := Nat.pow_log_le_self 10 hpos
  have hhigh : v < 10 ^ Nat.log 10 v * 10 := Nat.lt_pow_succ_log_self (b := 10) (by decide) v
  have htop := h _ hlog
  rw [digit, Nat.mod_eq_of_lt (Nat.div_lt_of_lt_mul hhigh)] at htop
  exact absurd (Nat.div_pos hlow (by positivity)) (by omega)

/-- The lowest nonzero excess digit of a 64-bit cell is at the slot that the search answers. -/
theorem excessSlot_eq {v n j : Nat} (hv : v < 10 ^ 19) (hn : n ≤ 3) (hj : n < j)
    (hne : digit v (1 + j) ≠ 0) (hlower : ∀ k, n < k → k < j → digit v (1 + k) = 0) :
    excessSlot v n = j := by
  have hle : j ≤ 17 := by
    by_contra hgt
    exact hne (digit_eq_zero_of_lt hv (by omega))
  exact firstExcessSlot_eq v (16 - n) (n + 1) j hj (by omega) hne fun k h1 h2 => hlower k h1 h2

theorem checkExcess_of_digit {cell : Word} {v n j : Nat} (hv : v < 10 ^ 19) (hn : n ≤ 3) (hj : n < j)
    (hne : digit v (1 + j) ≠ 0) (hlower : ∀ k, n < k → k < j → digit v (1 + k) = 0) :
    checkExcess .fault cell v n = .error (.invalidAddressingMode cell j (digit v (1 + j))) := by
  have hexcess : v / 10 ^ (2 + n) ≠ 0 := fun h =>
    hne (digit_eq_zero_of_lt ((Nat.div_eq_zero_iff_lt (by positivity)).1 h) (by omega))
  rw [checkExcess, if_neg hexcess, excessSlot_eq hv hn hj hne hlower]

theorem toInt_toNat_lt (cell : Word) : cell.toInt.toNat < 10 ^ 19 := by
  have := (toInt_range cell).2
  omega

/-- The digits of a number below a power of ten are those of its remainder. -/
theorem digit_mod_pow {v n k : Nat} (h : k < n) : digit (v % 10 ^ n) k = digit v k := by
  obtain ⟨m, rfl⟩ := Nat.exists_eq_add_of_lt h
  rw [digit, digit, Nat.add_assoc, pow_add, Nat.mod_mul_right_div_self, Nat.mod_mod_of_dvd]
  exact dvd_pow_self 10 (Nat.succ_ne_zero m)

/-- The number in the cell that is left when the excess digits are cut off. -/
theorem cut_toInt (op : Opcode) (v : Nat) :
    0 ≤ (BitVec.ofNat 64 (v % 10 ^ (2 + op.arity))).toInt ∧
      (BitVec.ofNat 64 (v % 10 ^ (2 + op.arity))).toInt.toNat = v % 10 ^ (2 + op.arity) := by
  have hle : 10 ^ (2 + op.arity) ≤ 10 ^ 5 :=
    Nat.pow_le_pow_right (by decide) (Nat.add_le_add_left op.arity_le 2)
  rw [toInt_ofNat_small ((Nat.mod_lt v (by positivity)).trans_le hle)]
  exact ⟨Int.natCast_nonneg _, Int.toNat_natCast _⟩

/-- Cutting off the excess digits keeps the opcode and the modes. -/
theorem ModesOf.mod_pow {op : Opcode} {v : Nat} {ms : List Mode} (h : ModesOf op v ms) :
    ModesOf op (v % 10 ^ (2 + op.arity)) ms := by
  obtain ⟨hlen, hdigits⟩ := h
  exact ⟨hlen, fun k hk => by rw [digit_mod_pow (by omega), hdigits k hk]⟩

theorem mod_pow_mod_hundred (op : Opcode) (v : Nat) : v % 10 ^ (2 + op.arity) % 100 = v % 100 :=
  Nat.mod_mod_of_dvd v (Nat.pow_dvd_pow 10 (Nat.le_add_right 2 op.arity))

/-- Settles O6: under `fault` the search finds the slot; with no excess digit the check passes under both
policies; under `ignore` the opcode and the modes alone decide. -/
theorem excessDigitFollowsThePolicy : Obligations.ExcessDigitFollowsThePolicy := by
  intro cell op h0 hop hlegal
  obtain ⟨ms, hms⟩ := exists_modesOf hlegal
  refine ⟨fun j hj hne hlower => ?_, fun hzero => ?_, fun d => ?_⟩
  · rw [decodeCell_modes_ok h0 hop (hms.decodeModes cell),
      checkExcess_of_digit (toInt_toNat_lt cell) op.arity_le hj hne hlower, error_bind]
  · have hlt : cell.toInt.toNat < 10 ^ (2 + op.arity) := lt_pow_of_digits_eq_zero fun k hk => by
      have hdigit := hzero (k - 1) (by omega)
      rwa [Nat.add_sub_cancel' (by omega)] at hdigit
    rw [decodeCell_of_modesOf h0 hop hms fun _ => hlt, decodeCell_of_modesOf h0 hop hms (by simp)]
  · obtain ⟨h0', hv⟩ := cut_toInt op cell.toInt.toNat
    rw [decodeCell_eq_ok_iff h0 hop hms (by simp),
      decodeCell_eq_ok_iff h0' (by rw [hv, mod_pow_mod_hundred, hop]) (by rw [hv]; exact hms.mod_pow)
        (by simp)]

/-! ## Write targets (R79) -/

theorem checkWriteModes_of_immediate (cell : Word) {op : Opcode} {ms : List Mode} {i : Nat}
    (hi : i ∈ op.writeSlots) (h : ms[i - 1]? = some .immediate) :
    checkWriteModes cell ms op.writeSlots = .error (.illegalWriteMode cell i) := by
  cases hc : checkWriteModes cell ms op.writeSlots with
  | ok => exact absurd h (checkWriteModes_ok.1 hc i hi)
  | error e =>
    obtain ⟨j, hj, -, rfl⟩ := checkWriteModes_error hc
    rw [writeSlots_unique hi hj]

/-- Settles O7: with legal digits the write-mode check alone decides, and the digit 1 is Immediate. -/
theorem immediateIsIllegalExactlyOnWriteTargets :
    Obligations.ImmediateIsIllegalExactlyOnWriteTargets := by
  refine ⟨fun p cell op h0 hop hlegal hx => ?_, fun op => by cases op <;> rfl⟩
  obtain ⟨ms, hms⟩ := exists_modesOf hlegal
  refine ⟨fun i hi h1 => ?_, fun hne => ⟨ms, ?_⟩⟩
  · rw [decodeCell_of_modesOf h0 hop hms hx,
      checkWriteModes_of_immediate cell hi ((hms.immediate_iff hi).2 h1)]
    rfl
  · exact (decodeCell_eq_ok_iff h0 hop hms hx _).2
      ⟨fun i hi => mt (hms.immediate_iff hi).1 (hne i hi), rfl⟩

/-! ## Words of every class, and operands (R72, R80, R81) -/

/-- Settles O3: each word is decoded. -/
theorem specWordsDecode : Obligations.SpecWordsDecode := by
  refine ⟨?_, ?_, ?_, ?_, ?_, ?_, ?_, ?_, ?_, ?_, ?_, ?_⟩ <;> decide

/-- Settles O11: a Position and a Relative operand are a bounds-checked read. -/
theorem readOperandByMode : Obligations.ReadOperandByMode := fun s _ =>
  ⟨rfl, s.memRead_eq _, s.memRead_eq _⟩

/-- Settles O12: both addresses pass the bounds check. -/
theorem writeAddressByMode : Obligations.WriteAddressByMode := fun s _ _ =>
  ⟨s.checkAddress_eq _, s.checkAddress_eq _⟩

end Sys2Proof
end

section
/-! PROOFS. 30_encoding.md R86: an assembler line, written and read back. -/

namespace Sys2Proof.Machine

/-! ## Numbers

Plain decimal reads back as the word, and so does an offset with the sign that R86 writes before it. -/

theorem readSigned_decimal (v : Int) : readSigned (decimal v) = some v := by
  obtain ⟨ds, hne, hdigit, hvalue, hshape⟩ := decimal_shape v
  rw [hshape]
  split
  next hneg =>
    simp only [readSigned, if_true, readDigits_of hne hdigit, hvalue, Option.map_some]
    congr 1
    omega
  next hpos =>
    cases ds with
    | nil => exact absurd rfl hne
    | cons c cs =>
      obtain ⟨hminus, hplus, -⟩ := digit_ne (hdigit c (by simp))
      simp only [readSigned, hminus, hplus, if_false, readDigits_of hne hdigit, hvalue, Option.map_some]
      congr 1
      omega

theorem readSigned_plus_decimal {v : Int} (h : 0 ≤ v) : readSigned ('+' :: decimal v) = some v := by
  obtain ⟨ds, hne, hdigit, hvalue, hshape⟩ := decimal_shape v
  rw [hshape, if_neg (by omega)]
  simp [readSigned, readDigits_of hne hdigit, hvalue, h]

/-- A text with the value of a word is a literal of that word. -/
theorem readLiteral_of_signed {t : List Char} {v : Word} (h : readSigned t = some v.toInt) :
    readLiteral t = some v := by
  simp [readLiteral, h]

theorem readLiteral_decimal (v : Word) : readLiteral (decimal v.toInt) = some v :=
  readLiteral_of_signed (readSigned_decimal v.toInt)

/-! ## Texts that the reader does not cut -/

/-- No white space and no comma: neither trimming nor splitting cuts the text. -/
def unbroken (t : List Char) : Bool := t.all fun c => !isSpace c && c != ','

theorem unbroken_iff {t : List Char} :
    unbroken t = true ↔ ∀ c ∈ t, isSpace c = false ∧ c ≠ ',' := by
  simp [unbroken]

theorem unbroken_append {t u : List Char} (ht : unbroken t = true) (hu : unbroken u = true) :
    unbroken (t ++ u) = true := by
  rw [unbroken, List.all_append, Bool.and_eq_true]
  exact ⟨ht, hu⟩

theorem unbroken_decimal (v : Int) : unbroken (decimal v) = true :=
  unbroken_iff.2 fun c hc =>
    have ⟨hspace, hcomma, _⟩ := decimal_plain v c hc
    ⟨hspace, hcomma⟩

theorem trim_unbroken {t : List Char} (h : unbroken t = true) : trimToken t = t :=
  trim_of fun c hc => (unbroken_iff.1 h c hc).1

/-- The text begins and ends with a character that is no white space: trimming does not cut it. -/
def Framed (t : List Char) : Prop :=
  (∃ c, t.head? = some c ∧ isSpace c = false) ∧ ∃ d, t.getLast? = some d ∧ isSpace d = false

theorem Framed.ne_nil {t : List Char} (h : Framed t) : t ≠ [] := by
  rintro rfl
  obtain ⟨⟨c, hc, -⟩, -⟩ := h
  simp at hc

theorem Framed.trim {t : List Char} (h : Framed t) : trimToken t = t := by
  obtain ⟨⟨c, hc, hspace⟩, d, hd, hspace'⟩ := h
  obtain ⟨u, rfl⟩ := List.head?_eq_some_iff.1 hc
  refine trim_first hspace fun e he => ?_
  rw [List.getLast?_cons, he] at hd
  obtain rfl := Option.some.inj hd
  exact hspace'

theorem framed_of_unbroken {t : List Char} (h : unbroken t = true) (hne : t ≠ []) : Framed t :=
  ⟨⟨t.head hne, List.head?_eq_some_head hne, (unbroken_iff.1 h _ (List.head_mem hne)).1⟩,
    t.getLast hne, List.getLast?_eq_some_getLast hne, (unbroken_iff.1 h _ (List.getLast_mem hne)).1⟩

/-- Whatever stands between two framed texts. -/
theorem Framed.append {t u : List Char} (ht : Framed t) (w : List Char) (hu : Framed u) :
    Framed (t ++ w ++ u) := by
  obtain ⟨⟨c, hc, hspace⟩, -⟩ := ht
  obtain ⟨-, d, hd, hspace'⟩ := hu
  exact ⟨⟨c, by simp [hc], hspace⟩, d, by simp [hd], hspace'⟩

/-! ## One operand -/

theorem unbroken_operandText (o : Operand) : unbroken (operandText o) = true := by
  obtain ⟨mode, raw⟩ := o
  have hdec := unbroken_decimal raw.toInt
  have hinside {sign : List Char} (h : unbroken sign = true) :
      unbroken (sign ++ decimal raw.toInt ++ [']']) = true :=
    unbroken_append (unbroken_append h hdec) (by decide)
  cases mode with
  | position => exact hinside (sign := ['[']) (by decide)
  | immediate => exact unbroken_append (t := ['#']) (by decide) hdec
  | relative =>
    simp only [operandText]
    split
    · exact hinside (by decide)
    · exact hinside (by decide)

theorem operandText_ne_nil (o : Operand) : operandText o ≠ [] := by
  obtain ⟨mode, raw⟩ := o
  cases mode with
  | position | immediate => exact List.cons_ne_nil _ _
  | relative =>
    simp only [operandText]
    split
    · simp
    · simp

theorem framed_operandText (o : Operand) : Framed (operandText o) :=
  framed_of_unbroken (unbroken_operandText o) (operandText_ne_nil o)

/-- What stands between brackets is what `readBracket` reads. -/
theorem readOperandText_bracket {inner : List Char} (h : unbroken inner = true) :
    readOperandText ('[' :: inner ++ [']']) = readBracket inner := by
  simp [readOperandText, trim_unbroken h]

theorem readBracket_decimal (v : Word) : readBracket (decimal v.toInt) = some ⟨.position, v⟩ := by
  unfold readBracket
  split
  next rest h =>
    have hr := (decimal_plain v.toInt 'r' (by simp [h])).2.2.2.1
    exact absurd rfl hr
  next => simp [readLiteral_decimal]

/-- `rb` with a signed number reads as a Relative operand. -/
theorem readBracket_rb {c : Char} {ds : List Char} {v : Word} (hc : c = '+' ∨ c = '-')
    (h : unbroken (c :: ds) = true) (hv : readSigned (c :: ds) = some v.toInt) :
    readBracket ('r' :: 'b' :: c :: ds) = some ⟨.relative, v⟩ := by
  rcases hc with rfl | rfl
  · simp [readBracket, trim_unbroken h, readLiteral_of_signed hv]
  · simp [readBracket, trim_unbroken h, readLiteral_of_signed hv]

theorem readOperandText_operandText (o : Operand) : readOperandText (operandText o) = some o := by
  obtain ⟨mode, raw⟩ := o
  have hdec := unbroken_decimal raw.toInt
  cases mode with
  | position => exact (readOperandText_bracket hdec).trans (readBracket_decimal raw)
  | immediate => simp [operandText, readOperandText, trim_unbroken hdec, readLiteral_decimal]
  | relative =>
    simp only [operandText]
    split
    next hneg =>
      obtain ⟨ds, hds⟩ : ∃ ds, decimal raw.toInt = '-' :: ds := ⟨_, if_pos hneg⟩
      have hv := readSigned_decimal raw.toInt
      rw [hds] at hdec hv ⊢
      exact (readOperandText_bracket (inner := ['r', 'b'] ++ '-' :: ds)
        (unbroken_append (by decide) hdec)).trans (readBracket_rb (.inr rfl) hdec hv)
    next hpos =>
      have hsign : unbroken ('+' :: decimal raw.toInt) = true :=
        unbroken_append (t := ['+']) (by decide) hdec
      exact (readOperandText_bracket (inner := ['r', 'b'] ++ '+' :: decimal raw.toInt)
        (unbroken_append (by decide) hsign)).trans
        (readBracket_rb (.inl rfl) hsign (readSigned_plus_decimal (not_lt.1 hpos)))

/-! ## The operands of a line -/

theorem framed_operandsText : ∀ {os : List Operand}, os ≠ [] → Framed (operandsText os)
  | [], h => absurd rfl h
  | [o], _ => framed_operandText o
  | o :: p :: rest, _ =>
    (framed_operandText o).append _ (framed_operandsText (os := p :: rest) (List.cons_ne_nil _ _))

theorem comma_not_in_spaced_operandText (o : Operand) : ∀ c ∈ ' ' :: operandText o, c ≠ ',' := by
  intro c hc
  rcases List.mem_cons.1 hc with rfl | hc
  · decide
  · exact (unbroken_iff.1 (unbroken_operandText o) c hc).2

theorem readOperandText_spaced (o : Operand) :
    readOperandText (trimToken (' ' :: operandText o)) = some o := by
  rw [trim_space ' ' _ rfl, trim_unbroken (unbroken_operandText o), readOperandText_operandText]

/-- Split at its commas, the text of the operands after a space is read operand by operand. -/
theorem mapM_splitCommas_operandsText : ∀ {os : List Operand}, os ≠ [] →
    ((splitCommas (' ' :: operandsText os)).mapM fun u => readOperandText (trimToken u)) = some os
  | [], h => absurd rfl h
  | [o], _ => by
    rw [operandsText, split_plain (comma_not_in_spaced_operandText o)]
    simp [readOperandText_spaced]
  | o :: p :: rest, _ => by
    have hsplit : splitCommas (' ' :: operandsText (o :: p :: rest)) =
        (' ' :: operandText o) :: splitCommas (' ' :: operandsText (p :: rest)) := by
      rw [← split_comma _ (comma_not_in_spaced_operandText o)]
      simp [operandsText]
    rw [hsplit, List.mapM_cons, readOperandText_spaced,
      mapM_splitCommas_operandsText (os := p :: rest) (List.cons_ne_nil _ _)]
    rfl

theorem readOperandsText_operandsText {os : List Operand} (h : os ≠ []) :
    readOperandsText (' ' :: operandsText os) = some os := by
  have hframed := framed_operandsText h
  have hempty : ¬(trimToken (' ' :: operandsText os)).isEmpty := by
    rw [trim_space ' ' _ rfl, hframed.trim, List.isEmpty_iff]
    exact hframed.ne_nil
  rw [readOperandsText, if_neg hempty, mapM_splitCommas_operandsText h]

/-! ## A line -/

/-- A mnemonic is capital letters: nothing a number is written with, nothing that ends a name. -/
theorem mnemonicText_chars (op : Opcode) :
    ∀ c ∈ mnemonicText op, isSpace c = false ∧ isDigit c = false ∧ c ≠ '-' ∧ c ≠ '.' := by
  have h : ((mnemonicText op).all fun c => !isSpace c && !isDigit c && c != '-' && c != '.') = true := by
    cases op <;> decide
  simpa [and_assoc] using h

theorem mnemonicText_ne_nil (op : Opcode) : mnemonicText op ≠ [] := by cases op <;> decide

theorem framed_mnemonicText (op : Opcode) : Framed (mnemonicText op) :=
  framed_of_unbroken (by cases op <;> decide) (mnemonicText_ne_nil op)

theorem opcodeOfText_mnemonicText (op : Opcode) : opcodeOfText (mnemonicText op) = some op := by
  cases op <;> decide

theorem instrOf_operands (i : Instr) : instrOf i.opcode i.operands = some i := by
  rw [instrOf, if_pos i.operands_length, toInstr_of]

/-- A framed line that begins with a mnemonic and goes on with nothing or with a space is read as an
instruction of that class. -/
theorem readLine_of_mnemonic (op : Opcode) {tail : List Char} (htail : tail.takeWhile (!isSpace ·) = [])
    (hframed : Framed (mnemonicText op ++ tail)) :
    readLine (mnemonicText op ++ tail) =
      ((readOperandsText tail).bind (instrOf op)).map AsmLine.instr := by
  have hname : ∀ c ∈ mnemonicText op, (!isSpace c) = true := fun c hc => by
    simp [(mnemonicText_chars op c hc).1]
  have hdrop : tail.dropWhile (!isSpace ·) = tail := by
    simpa [htail] using List.takeWhile_append_dropWhile (p := (!isSpace ·)) (l := tail)
  have hword : mnemonicText op ≠ ".word".toList := fun h =>
    (mnemonicText_chars op '.' (by simp [h])).2.2.2 rfl
  simp only [readLine, hframed.trim, List.takeWhile_append_of_pos hname,
    List.dropWhile_append_of_pos hname, htail, hdrop, List.append_nil, if_neg hword,
    opcodeOfText_mnemonicText]

theorem readLine_instr (i : Instr) : readLine (AsmLine.instr i).text = some (.instr i) := by
  have hname := framed_mnemonicText i.opcode
  have hread {tail : List Char} (hops : readOperandsText tail = some i.operands) :
      ((readOperandsText tail).bind (instrOf i.opcode)).map AsmLine.instr = some (.instr i) := by
    rw [hops, Option.bind_some, instrOf_operands, Option.map_some]
  simp only [AsmLine.text, List.isEmpty_iff]
  split
  next hnil =>
    have h := readLine_of_mnemonic i.opcode (tail := []) rfl (by rwa [List.append_nil])
    rw [List.append_nil] at h
    exact h.trans (hread (by rw [hnil]; rfl))
  next hne =>
    have hframed := hname.append [' '] (framed_operandsText hne)
    rw [List.append_assoc] at hframed
    exact (readLine_of_mnemonic i.opcode rfl hframed).trans (hread (readOperandsText_operandsText hne))

/-- A number is no mnemonic. -/
theorem opcodeOfText_decimal (v : Int) : opcodeOfText (decimal v) = none := by
  refine List.find?_eq_none.2 fun op _ h => ?_
  have heq : mnemonicText op = decimal v := by simpa using h
  obtain ⟨c, hc⟩ := List.exists_mem_of_ne_nil _ (mnemonicText_ne_nil op)
  obtain ⟨-, hdigit, hminus, -⟩ := mnemonicText_chars op c hc
  rcases decimal_chars v c (heq ▸ hc) with h | h
  · simp [h] at hdigit
  · exact hminus h

theorem readLine_data (v : Word) : readLine (AsmLine.data v).text = some (.data v) := by
  have hchars := decimal_plain v.toInt
  have hname : (decimal v.toInt).takeWhile (!isSpace ·) = decimal v.toInt := by
    rw [List.takeWhile_eq_self_iff]
    exact fun c hc => by simp [(hchars c hc).1]
  have hword : decimal v.toInt ≠ ".word".toList := fun h =>
    (hchars '.' (by simp [h])).2.2.2.2 rfl
  simp only [readLine, AsmLine.text, trim_unbroken (unbroken_decimal v.toInt), hname, if_neg hword,
    opcodeOfText_decimal, readLiteral_decimal, Option.map_some]

/-- Settles O60: a written mnemonic is cut off at its space and its operands are read one by one; a number is
no mnemonic and reads as a literal. -/
theorem assemblerReadsWhatItWrites : Obligations.AssemblerReadsWhatItWrites
  | .instr i => readLine_instr i
  | .data v => readLine_data v

end Sys2Proof.Machine
end

section
/-! PROOFS. 40_loader.md: tokens and white space (R101, R102), literals (R103), the answer of `parse` (R104)
and its round trip (R105), and `loadCode` (R106 to R109). -/

namespace Sys2Proof.Machine

/-! ## Tokens and white space (R101, R102) -/

theorem splitCommas_comma (cs : List Char) : splitCommas (',' :: cs) = [] :: splitCommas cs := by
  simp [splitCommas]

/-- Any other character goes to the first token of the rest. -/
theorem splitCommas_cons_of_ne {c : Char} (h : c ≠ ',') (cs : List Char) :
    ∃ t ts, splitCommas cs = t :: ts ∧ splitCommas (c :: cs) = (c :: t) :: ts := by
  obtain ⟨t, ts, hcs⟩ := List.exists_cons_of_ne_nil (split_ne cs)
  exact ⟨t, ts, hcs, by simp [splitCommas, h, hcs]⟩

theorem comma_not_mem_of_mem_splitCommas {text t : List Char} (ht : t ∈ splitCommas text) : ',' ∉ t := by
  induction text generalizing t with
  | nil =>
    obtain rfl := List.mem_singleton.1 ht
    exact List.not_mem_nil
  | cons c cs ih =>
    by_cases hc : c = ','
    · rw [hc, splitCommas_comma, List.mem_cons] at ht
      rcases ht with rfl | ht
      · exact List.not_mem_nil
      · exact ih ht
    · obtain ⟨u, us, hcs, hsplit⟩ := splitCommas_cons_of_ne hc cs
      rw [hcs] at ih
      rw [hsplit, List.mem_cons] at ht
      rcases ht with rfl | ht
      · exact List.not_mem_cons_of_ne_of_not_mem (Ne.symm hc) (ih List.mem_cons_self)
      · exact ih (List.mem_cons_of_mem u ht)

theorem intercalate_splitCommas (text : List Char) : [','].intercalate (splitCommas text) = text := by
  induction text with
  | nil => rfl
  | cons c cs ih =>
    by_cases hc : c = ','
    · rw [hc, splitCommas_comma, List.intercalate_cons_of_ne_nil (split_ne cs), ih]
      rfl
    · obtain ⟨t, ts, hcs, hsplit⟩ := splitCommas_cons_of_ne hc cs
      rw [hcs] at ih
      rw [hsplit, ← ih]
      cases ts <;> simp

theorem length_splitCommas (text : List Char) : (splitCommas text).length = text.count ',' + 1 := by
  induction text with
  | nil => rfl
  | cons c cs ih =>
    by_cases hc : c = ','
    · rw [hc, splitCommas_comma, List.length_cons, ih, List.count_cons_self]
    · obtain ⟨t, ts, hcs, hsplit⟩ := splitCommas_cons_of_ne hc cs
      rw [List.count_cons_of_ne hc, ← ih, hsplit, hcs, List.length_cons, List.length_cons]

theorem isSpace_iff (c : Char) : isSpace c = true ↔ c.toNat ∈ [0x20, 0x09, 0x0A, 0x0B, 0x0C, 0x0D] :=
  List.contains_iff_mem

/-- White space on both sides of a text that has none at its ends is trimmed, and nothing else. -/
theorem trimToken_append {w t w' : List Char} (hw : ∀ c ∈ w, isSpace c = true)
    (hw' : ∀ c ∈ w', isSpace c = true) (hfirst : ∀ c, t.head? = some c → isSpace c = false)
    (hlast : ∀ c, t.getLast? = some c → isSpace c = false) : trimToken (w ++ t ++ w') = t := by
  rcases eq_or_ne t [] with rfl | hne
  · have hall : (w ++ [] ++ w').dropWhile isSpace = [] :=
      List.dropWhile_eq_nil_iff.2 (by simpa [or_imp, forall_and] using ⟨hw, hw'⟩)
    rw [trimToken, hall]
    rfl
  · have hfront : (w ++ (t ++ w')).dropWhile isSpace = t ++ w' :=
      dropWhile_front hw (by rwa [List.head?_append_of_ne_nil t hne])
    have hback : (w'.reverse ++ t.reverse).dropWhile isSpace = t.reverse :=
      dropWhile_front (by simpa using hw') (by simpa using hlast)
    rw [trimToken, List.append_assoc, hfront, List.reverse_append, hback, List.reverse_reverse]

/-! ## Literals (R103) -/

/-- A literal's value, where its text has one. -/
theorem readLiteral_of_readSigned {t : List Char} {v : Int} (h : readSigned t = some v) :
    readLiteral t = if fits64 v then some (wrap64 v) else none := by
  simp only [readLiteral, h]

theorem exists_readSigned_of_readLiteral {t : List Char} {w : Word} (h : readLiteral t = some w) :
    ∃ v, readSigned t = some v := by
  cases hv : readSigned t with
  | none => simp [readLiteral, hv] at h
  | some v => exact ⟨v, rfl⟩

/-- Text with a value is an optional sign and digits. -/
theorem shape_of_readSigned {t : List Char} {v : Int} (h : readSigned t = some v) :
    ∃ ds n, readDigits ds = some n ∧ (t = ds ∨ t = '+' :: ds ∨ t = '-' :: ds) := by
  cases t with
  | nil => simp [readSigned] at h
  | cons c cs =>
    simp only [readSigned] at h
    split_ifs at h with hminus hplus <;> obtain ⟨n, hn, -⟩ := Option.map_eq_some_iff.1 h
    · exact ⟨cs, n, hn, .inr (.inr (by rw [hminus]))⟩
    · exact ⟨cs, n, hn, .inr (.inl (by rw [hplus]))⟩
    · exact ⟨c :: cs, n, hn, .inl rfl⟩

theorem readSigned_digits {ds : List Char} (hne : ds ≠ []) (hdigit : ∀ c ∈ ds, isDigit c = true) :
    readSigned ds = some (digitsValue 0 ds : Int) := by
  cases ds with
  | nil => exact absurd rfl hne
  | cons c cs =>
    obtain ⟨hminus, hplus, -⟩ := digit_ne (hdigit c (by simp))
    simp only [readSigned, hminus, hplus, if_false, readDigits_of hne hdigit, Option.map_some]

theorem readSigned_plus {ds : List Char} (hne : ds ≠ []) (hdigit : ∀ c ∈ ds, isDigit c = true) :
    readSigned ('+' :: ds) = some (digitsValue 0 ds : Int) := by
  simp [readSigned, readDigits_of hne hdigit]

theorem readSigned_minus {ds : List Char} (hne : ds ≠ []) (hdigit : ∀ c ∈ ds, isDigit c = true) :
    readSigned ('-' :: ds) = some (-(digitsValue 0 ds : Int)) := by
  simp [readSigned, readDigits_of hne hdigit]

/-- For a value that is not negative only the upper end of the range counts. -/
theorem fits64_natCast_iff (n : Nat) : fits64 n = true ↔ (n : Int) ≤ 2 ^ 63 - 1 := by
  rw [fits64_iff]
  omega

/-- For a value that is not positive only the lower end of the range counts. -/
theorem fits64_neg_natCast_iff (n : Nat) : fits64 (-n) = true ↔ -2 ^ 63 ≤ -(n : Int) := by
  rw [fits64_iff]
  omega

/-- Settles O59: a text has a value only in one of the three shapes, and in each it is the value of the digits
with the sign, which `fits64` bounds on one side. -/
theorem literalIsASignedDecimalInRange : Obligations.LiteralIsASignedDecimalInRange := by
  refine ⟨fun t w h => ?_, ?_⟩
  · obtain ⟨v, hv⟩ := exists_readSigned_of_readLiteral h
    obtain ⟨ds, n, hn, hshape⟩ := shape_of_readSigned hv
    obtain ⟨hne, hdigit⟩ := readDigits_some hn
    exact ⟨ds, hne, hdigit, hshape⟩
  · rintro n ds hne hdigit rfl
    simp only [← fits64_natCast_iff, ← fits64_neg_natCast_iff]
    exact ⟨readLiteral_of_readSigned (readSigned_digits hne hdigit),
      readLiteral_of_readSigned (readSigned_plus hne hdigit),
      readLiteral_of_readSigned (readSigned_minus hne hdigit)⟩

/-! ## The answer of `parse` (R104) -/

/-- The trimmed token is no literal. -/
def badToken (t : List Char) : Bool := (readLiteral (trimToken t)).isNone

@[simp] theorem badToken_iff {t : List Char} : badToken t = true ↔ readLiteral (trimToken t) = none :=
  Option.isNone_iff_eq_none

theorem parseTokens_cons_of_none {t : List Char} (h : readLiteral (trimToken t) = none) (i : Nat)
    (ts : List (List Char)) : parseTokens i (t :: ts) = .error (.parseError i) := by
  simp only [parseTokens, h]

theorem parseTokens_cons_of_some {t : List Char} {v : Word} (h : readLiteral (trimToken t) = some v)
    (i : Nat) (ts : List (List Char)) :
    parseTokens i (t :: ts) = parseTokens (i + 1) ts >>= fun vs => .ok (v :: vs) := by
  simp only [parseTokens, h]

theorem parseTokens_eq_ok_iff {i : Nat} {ts : List (List Char)} {vs : List Word} :
    parseTokens i ts = .ok vs ↔ ts.map (fun t => readLiteral (trimToken t)) = vs.map some := by
  induction ts generalizing i vs with
  | nil => cases vs <;> simp [parseTokens]
  | cons t ts ih =>
    cases hv : readLiteral (trimToken t) with
    | none => cases vs <;> simp [parseTokens_cons_of_none hv, hv]
    | some v =>
      rw [parseTokens_cons_of_some hv, bind_eq_ok]
      cases vs with
      | nil => simp
      | cons w ws => simp [ih, hv, and_comm]

/-- `parse` fails with the position of the first bad token, and in no other way. -/
theorem parseTokens_eq_error_iff {i : Nat} {ts : List (List Char)} {e : Fault} :
    parseTokens i ts = .error e ↔ ∃ k, ts.findIdx? badToken = some k ∧ e = .parseError (i + k) := by
  induction ts generalizing i with
  | nil => simp [parseTokens]
  | cons t ts ih =>
    rw [List.findIdx?_cons]
    cases hv : readLiteral (trimToken t) with
    | none =>
      rw [parseTokens_cons_of_none hv, if_pos (badToken_iff.2 hv)]
      simp [eq_comm]
    | some v =>
      rw [parseTokens_cons_of_some hv, bind_eq_error, if_neg (by simp [hv]), ih]
      simp [Nat.add_assoc, Nat.add_comm 1]

/-- The first bad token, as R104 says it. -/
theorem findIdx?_badToken_iff {ts : List (List Char)} {k : Nat} : ts.findIdx? badToken = some k ↔
    (∃ t, ts[k]? = some t ∧ readLiteral (trimToken t) = none) ∧
      ∀ j t, j < k → ts[j]? = some t → readLiteral (trimToken t) ≠ none := by
  simp only [List.findIdx?_eq_some_iff_getElem, badToken_iff]
  constructor
  · rintro ⟨hk, hbad, hbefore⟩
    refine ⟨⟨ts[k], List.getElem?_eq_getElem hk, hbad⟩, fun j t hj ht => ?_⟩
    obtain ⟨-, rfl⟩ := List.getElem?_eq_some_iff.1 ht
    exact hbefore j hj
  · rintro ⟨⟨t, ht, hbad⟩, hbefore⟩
    obtain ⟨hk, rfl⟩ := List.getElem?_eq_some_iff.1 ht
    exact ⟨hk, hbad, fun j hj => hbefore j _ hj (List.getElem?_eq_getElem (hj.trans hk))⟩

/-- Settles O58: the tokens by the recursion of `splitCommas`, trimming end by end, and the failure by the
first index of a bad token. -/
theorem parseFailsAtTheFirstBadToken : Obligations.ParseFailsAtTheFirstBadToken := by
  refine ⟨fun text => ⟨fun _ => comma_not_mem_of_mem_splitCommas, intercalate_splitCommas text,
    length_splitCommas text⟩, isSpace_iff, fun _ _ _ => trimToken_append, rfl,
    fun text => ⟨fun vs => parseTokens_eq_ok_iff, fun k => ?_⟩⟩
  rw [parse, parseTokens_eq_error_iff, ← findIdx?_badToken_iff]
  simp

/-! ## The round trip (R105) -/

/-- The tokens of a written program are its items in plain decimal. -/
theorem splitCommas_stringify : ∀ {program : List Word}, program ≠ [] →
    splitCommas (stringify program) = program.map fun v => decimal v.toInt
  | [], h => absurd rfl h
  | [v], _ => split_plain fun c hc => (decimal_plain v.toInt c hc).2.1
  | v :: w :: rest, _ => by
    rw [stringify, split_comma _ fun c hc => (decimal_plain v.toInt c hc).2.1,
      splitCommas_stringify (List.cons_ne_nil w rest)]
    rfl

theorem readLiteral_trimToken_decimal (v : Word) :
    readLiteral (trimToken (decimal v.toInt)) = some v := by
  rw [trim_unbroken (unbroken_decimal v.toInt), readLiteral_decimal]

/-- Settles O57: the tokens of the text are the items in plain decimal, each of which reads back as its item;
the empty text is one empty token. -/
theorem parseOfStringifyIsTheProgram : Obligations.ParseOfStringifyIsTheProgram := by
  refine ⟨fun program h => ?_, rfl⟩
  rw [parse, splitCommas_stringify h, parseTokens_eq_ok_iff, List.map_map]
  exact List.map_congr_left fun v _ => readLiteral_trimToken_decimal v

/-! ## `loadCode` (R106 to R109) -/

/-- Between runs `loadCode` is carried out (R221). -/
theorem State.issue_loadCode {s : State} (h : s.isRunning = false) (program : List Word) :
    s.issue (.loadCode program) = s.loadCode program := by
  simp [State.issue, h]

/-- Above a sequence of cells written from `a` up nothing changes. -/
theorem Memory.read_writeFrom_after {vs : List Word} : ∀ {m : Memory} {a b : Nat},
    a + vs.length ≤ b → (m.writeFrom a vs).read b = m.read b := by
  induction vs with
  | nil => intros; rfl
  | cons v vs ih =>
    intro m a b h
    rw [List.length_cons] at h
    rw [Memory.writeFrom, ih (by omega), Memory.read_write_other m v (by omega)]

/-- The cells of a sequence that fits inside memory are read back. -/
theorem Memory.read_writeFrom_same {size : Nat} {vs : List Word} : ∀ {m : Memory} {a k : Nat},
    m.wf size = true → a + vs.length ≤ size → (hk : k < vs.length) →
    (m.writeFrom a vs).read (a + k) = vs[k] := by
  induction vs with
  | nil => intro m a k _ _ hk; exact absurd hk (Nat.not_lt_zero k)
  | cons v vs ih =>
    intro m a k hm hfits hk
    rw [List.length_cons] at hfits hk
    rw [Memory.writeFrom]
    cases k with
    | zero => exact (Memory.read_writeFrom_before (by omega)).trans (Memory.read_write_same hm a v)
    | succ k =>
      rw [← Nat.add_assoc, Nat.add_right_comm]
      exact ih (Memory.write_wf hm v (by omega)) (by omega) (by omega)

/-- Settles O51: the command writes the cells from 0 up, and a write changes no cell outside of them. -/
theorem loadCodeChangesOnlyTheProgramCells : Obligations.LoadCodeChangesOnlyTheProgramCells := by
  rintro s program ⟨-, hmem, -⟩ hidle hfits
  refine ⟨{ s with mem := s.mem.writeFrom 0 program }, ?_, fun a ha => ?_, fun a ha => ?_, rfl⟩
  · rw [State.issue_loadCode hidle, State.loadCode, if_neg hfits.not_gt]
  · simpa using Memory.read_writeFrom_same (a := 0) hmem (by simpa using hfits) ha
  · exact Memory.read_writeFrom_after (by simpa using ha)

/-- Settles O52: the length is checked before anything is written. -/
theorem overlongProgramIsRefused : Obligations.OverlongProgramIsRefused := by
  intro s program hidle hlong
  rw [State.issue_loadCode hidle, State.loadCode, if_pos hlong]

end Sys2Proof.Machine
end

section
/-! PROOFS. 41_arithmetic.md: `Arith` under both overflow policies (R120), `ADD` and `MUL` where they complete
(R121, R122), and the overflow that `ADD`, `MUL` and `ARB` raise (R120, 45_base_halt.md R200). -/

namespace Sys2Proof.Machine

/-! ## `Arith` (R120) -/

/-- A result that fits, or any result under `wrap`, is stored as its word. -/
theorem arith_of_fits_or_wrap {c : Config} {v : Int} (h : fits64 v = true ∨ c.overflow = .wrap) :
    arith c v = .ok (wrap64 v) :=
  h.elim arith_of_fits (arith_of_wrap v)

/-- Settles O9: the word stored is `wrap64 v`, which is exact where `v` fits and congruent to it everywhere. -/
theorem arithFollowsTheOverflowPolicy : Obligations.ArithFollowsTheOverflowPolicy := by
  intro c v
  rw [show (-2 ^ 63 ≤ v ∧ v ≤ 2 ^ 63 - 1) ↔ fits64 v = true from (fits64_iff v).symm, Bool.not_eq_true]
  refine ⟨fun hfits => ?_, fun hover => ⟨fun hfault => ?_, fun hwrap => ?_⟩⟩
  · exact ⟨wrap64 v, arith_of_fits hfits, wrap64_toInt_of_fits hfits⟩
  · exact arith_of_overflow hover hfault
  · exact ⟨wrap64 v, arith_of_wrap v hwrap,
      Int.emod_eq_emod_iff_emod_sub_eq_zero.1 (wrap64_toInt_emod v)⟩

/-! ## An instruction whose phases are known -/

theorem exec_of_phases_ok {i : Instr} {s s' : State} (h : phases i s = .ok s') : exec i s = .next s' := by
  rw [exec_eq_settle, h, State.settle_ok]

theorem exec_of_phases_error {i : Instr} {s : State} {t : Trap} (h : phases i s = .error t) :
    exec i s = .next (s.raise t) := by
  rw [exec_eq_settle, h, State.settle_error]

/-! ## Two operands and a target that resolve -/

/-- With both operands and the target resolved, the computation alone decides. -/
theorem State.binaryToCell_of_resolved {s : State} {a b c : Operand} {x y : Word} {t : Nat}
    (hx : s.readOperand a = .ok x) (hy : s.readOperand b = .ok y) (ht : s.writeAddress 3 c = .ok t)
    (f : Word → Word → Except Trap Word) :
    s.binaryToCell a b c f = f x y >>= fun r => .ok ((s.setCell t r).advance 4) := by
  simp only [State.binaryToCell, hx, hy, ht, ok_bind]

/-- A store and the advance past the instruction change one cell and `PC`. -/
theorem State.changedOnlyCellAndPc_store (s : State) (t k : Nat) (r : Word) :
    s.ChangedOnlyCellAndPc ((s.setCell t r).advance k) t k :=
  ⟨fun _ ha => Memory.read_write_other s.mem r ha, rfl⟩

/-- An instruction of this shape stores the word it computes, and changes nothing else but `PC`. -/
theorem exec_stores_of_binaryToCell {i : Instr} {s : State} {a b c : Operand} {x y r : Word} {t : Nat}
    {f : Word → Word → Except Trap Word} (hi : phases i s = s.binaryToCell a b c f) (hinv : s.Inv)
    (hx : s.readOperand a = .ok x) (hy : s.readOperand b = .ok y) (ht : s.writeAddress 3 c = .ok t)
    (hr : f x y = .ok r) :
    ∃ s', exec i s = .next s' ∧ s'.mem.read t = r ∧ s.ChangedOnlyCellAndPc s' t 4 := by
  obtain ⟨-, hmem, -⟩ := hinv
  refine ⟨(s.setCell t r).advance 4, exec_of_phases_ok ?_, Memory.read_write_same hmem t r,
    s.changedOnlyCellAndPc_store t 4 r⟩
  rw [hi, State.binaryToCell_of_resolved hx hy ht, hr, ok_bind]

/-- An instruction of this shape raises the error of its computation. -/
theorem exec_raises_of_binaryToCell {i : Instr} {s : State} {a b c : Operand} {x y : Word} {t : Nat}
    {e : Trap} {f : Word → Word → Except Trap Word} (hi : phases i s = s.binaryToCell a b c f)
    (hx : s.readOperand a = .ok x) (hy : s.readOperand b = .ok y) (ht : s.writeAddress 3 c = .ok t)
    (he : f x y = .error e) : exec i s = .next (s.raise e) := by
  apply exec_of_phases_error
  rw [hi, State.binaryToCell_of_resolved hx hy ht, he, error_bind]

/-! ## `ADD` and `MUL` where they complete (R121, R122) -/

/-- Settles O13: the computation of `ADD` is `Arith(x + y)`, which is stored here under either policy. -/
theorem addStoresTheSum : Obligations.AddStoresTheSum := by
  intro s a b c x y t hinv hx hy ht hstored
  exact exec_stores_of_binaryToCell rfl hinv hx hy ht (arith_of_fits_or_wrap hstored)

/-- Settles O14: the computation of `MUL` is `Arith(x * y)`, which is stored here under either policy. -/
theorem mulStoresTheProduct : Obligations.MulStoresTheProduct := by
  intro s a b c x y t hinv hx hy ht hstored
  exact exec_stores_of_binaryToCell rfl hinv hx hy ht (arith_of_fits_or_wrap hstored)

/-! ## Overflow under the `fault` policy (R120, R200) -/

/-- `ARB` raises the error of `Arith(RB + x)`. -/
theorem exec_arb_of_arith_error {s : State} {a : Operand} {x : Word} {e : Trap}
    (hx : s.readOperand a = .ok x) (he : arith s.cfg (s.rb.toInt + x.toInt) = .error e) :
    exec (.arb a) s = .next (s.raise e) := by
  apply exec_of_phases_error
  rw [phases, hx, ok_bind, he, error_bind]

/-- Settles O24: `Arith` answers the overflow with the exact value, and each of the three raises the error
that `Arith` answers. -/
theorem overflowIsRaisedByAddMulAndArb : Obligations.OverflowIsRaisedByAddMulAndArb := by
  intro s a b c x y t hfault hx
  refine ⟨fun hover => ?_, fun hy ht => ⟨fun hover => ?_, fun hover => ?_⟩⟩
  · exact exec_arb_of_arith_error hx (arith_of_overflow hover hfault)
  · exact exec_raises_of_binaryToCell (e := .arithmeticOverflow (x.toInt + y.toInt)) rfl hx hy ht
      (arith_of_overflow hover hfault)
  · exact exec_raises_of_binaryToCell (e := .arithmeticOverflow (x.toInt * y.toInt)) rfl hx hy ht
      (arith_of_overflow hover hfault)

end Sys2Proof.Machine
end

section
/-! PROOFS. 42_io.md: `IN` where it completes and where it raises (R140, R141), `OUT` (R142), what no step
writes (R143, 00_scope.md R5), and that each I/O mode keeps to its own channel (R140, R142). -/

namespace Sys2Proof.Machine

/-! ## `ReadInputValue` (R140) -/

theorem State.readInput_batch {s : State} {v : Word} {q : List Word} (hm : s.ioMode = .batch)
    (hq : s.inQ = v :: q) : s.readInput = .ok (v, q) := by
  simp only [State.readInput, hm, hq]

theorem State.readInput_exhausted {s : State} (hm : s.ioMode = .batch) (hq : s.inQ = []) :
    s.readInput = .error .inputExhausted := by
  simp only [State.readInput, hm, hq]

theorem State.readInput_step {s : State} (hm : s.ioMode = .step) :
    s.readInput = .ok (s.inSlot, s.inQ) := by
  simp only [State.readInput, hm]

/-! ## `IN` (R141) -/

theorem phases_inp_of_input {s : State} {c : Operand} {t : Nat} {v : Word} {q : List Word}
    (ht : s.writeAddress 1 c = .ok t) (hv : s.readInput = .ok (v, q)) :
    phases (.inp c) s = .ok (((s.setCell t v).setInQ q).advance 2) := by
  rw [phases, ht, ok_bind, hv, ok_bind]

theorem phases_inp_of_no_input {s : State} {c : Operand} {t : Nat} {e : Trap}
    (ht : s.writeAddress 1 c = .ok t) (he : s.readInput = .error e) :
    phases (.inp c) s = .error e := by
  rw [phases, ht, ok_bind, he, error_bind]

/-- A target that does not resolve is found before the input is read. -/
theorem phases_inp_of_bad_target {s : State} {c : Operand} {e : Trap}
    (he : s.writeAddress 1 c = .error e) : phases (.inp c) s = .error e := by
  rw [phases, he, error_bind]

/-- `IN` stores the value it reads, leaves in `IN_Q` what the read leaves, and changes nothing else but
`PC`. -/
theorem exec_inp_stores {s : State} {c : Operand} {t : Nat} {v : Word} {q : List Word} (hinv : s.Inv)
    (ht : s.writeAddress 1 c = .ok t) (hv : s.readInput = .ok (v, q)) :
    ∃ s', exec (.inp c) s = .next s' ∧ s'.mem.read t = v ∧ s'.inQ = q ∧
      (s.setInQ q).ChangedOnlyCellAndPc s' t 2 := by
  obtain ⟨-, hmem, -⟩ := hinv
  exact ⟨((s.setInQ q).setCell t v).advance 2, exec_of_phases_ok (phases_inp_of_input ht hv),
    Memory.read_write_same hmem t v, rfl, (s.setInQ q).changedOnlyCellAndPc_store t 2 v⟩

/-- Settles O17: in batch mode the read answers the head and leaves the rest. -/
theorem inTakesTheHeadOfTheQueue : Obligations.InTakesTheHeadOfTheQueue := by
  intro s c t v q hinv hm hq ht
  exact exec_inp_stores hinv ht (State.readInput_batch hm hq)

/-- Settles O18: in step mode the read answers `IN_SLOT` and leaves `IN_Q` as it is. -/
theorem inReadsTheStagedInput : Obligations.InReadsTheStagedInput := by
  intro s c t hinv hm ht
  obtain ⟨s', hexec, hread, -, hframe⟩ := exec_inp_stores hinv ht (State.readInput_step hm)
  exact ⟨s', hexec, hread, hframe⟩

/-- Settles O25: the target is resolved before the input is read, and each error is raised with its record. -/
theorem inputErrorsConsumeNothing : Obligations.InputErrorsConsumeNothing := by
  intro s c
  refine ⟨fun t hm hq ht => ?_, fun a ha => ?_⟩
  · exact exec_of_phases_error (phases_inp_of_no_input ht (State.readInput_exhausted hm hq))
  · exact exec_of_phases_error (phases_inp_of_bad_target ha)

/-! ## `OUT` (R142) -/

theorem exec_out_of_readOperand {s : State} {a : Operand} {x : Word} (hx : s.readOperand a = .ok x) :
    exec (.out a) s = .next ((s.emit x).advance 2) := by
  apply exec_of_phases_ok
  rw [phases, hx, ok_bind]

/-- Settles O19: the operand is emitted by the I/O mode. -/
theorem outEmitsByTheIoMode : Obligations.OutEmitsByTheIoMode := by
  intro s a x hx
  rw [exec_out_of_readOperand hx]
  refine ⟨fun hm => ?_, fun hm => ?_⟩
  · rw [State.emit_batch s x hm]
    rfl
  · rw [State.emit_step s x hm]
    rfl

/-! ## What no step writes (R143, 00_scope.md R5) -/

/-- Settles O42: a step that executes an instruction keeps both by the instruction's frame; the host
commands by their cases. -/
theorem noStepWritesTheStagedInput : Obligations.NoStepWritesTheStagedInput := by
  refine ⟨fun s s' h => ?_, fun s s' c h => ?_⟩
  · rcases step_eq_or_exec h with ⟨f, p, rfl⟩ | ⟨i, s₁, p, -, -, he, rfl⟩
    · exact ⟨rfl, rfl⟩
    · obtain ⟨-, hcfg, hslot, -⟩ := frameOfEveryInstruction i s s₁ he
      exact ⟨hslot, hcfg⟩
  · rcases State.issue_cases h with ⟨-, rfl⟩ | ⟨program, -, -, rfl⟩ | ⟨-, -, q, x, p, rfl⟩
    · rfl
    · rfl
    · rfl

/-! ## The channel that an I/O mode leaves alone

`s.withUnused m d` is `s` with another content of the channel that mode `m` does not use. A step taken in
mode `m` commutes with it, which says both that the step does not read that channel and that it does not
change it. -/

/-- `s` with the unused channel of `d`: `IN_Q` and `OUT_SEQ` in step mode, `IN_SLOT` and `OUT_SLOT` in batch
mode. -/
def State.withUnused (s : State) (m : IOMode) (d : State) : State :=
  match m with
  | .step => { s with inQ := d.inQ, outSeq := d.outSeq }
  | .batch => { s with inSlot := d.inSlot, outSlot := d.outSlot }

section WithUnused

variable (s : State) (m : IOMode) (d : State)

theorem State.withUnused_self : s.withUnused m s = s := by cases m <;> rfl

@[simp] theorem State.withUnused_cfg : (s.withUnused m d).cfg = s.cfg := by cases m <;> rfl
@[simp] theorem State.withUnused_mem : (s.withUnused m d).mem = s.mem := by cases m <;> rfl
@[simp] theorem State.withUnused_pc : (s.withUnused m d).pc = s.pc := by cases m <;> rfl
@[simp] theorem State.withUnused_rb : (s.withUnused m d).rb = s.rb := by cases m <;> rfl
@[simp] theorem State.withUnused_halt : (s.withUnused m d).halt = s.halt := by cases m <;> rfl
@[simp] theorem State.withUnused_fault : (s.withUnused m d).fault = s.fault := by cases m <;> rfl
@[simp] theorem State.withUnused_port : (s.withUnused m d).port = s.port := by cases m <;> rfl
@[simp] theorem State.withUnused_ioMode : (s.withUnused m d).ioMode = s.ioMode := by cases m <;> rfl
@[simp] theorem State.withUnused_faulted : (s.withUnused m d).faulted = s.faulted := by cases m <;> rfl
@[simp] theorem State.withUnused_isRunning : (s.withUnused m d).isRunning = s.isRunning := by
  cases m <;> rfl

/-! Writing another field commutes with it. -/

theorem State.withUnused_setCell (a : Nat) (v : Word) :
    (s.withUnused m d).setCell a v = (s.setCell a v).withUnused m d := by cases m <;> rfl
theorem State.withUnused_advance (k : Nat) :
    (s.withUnused m d).advance k = (s.advance k).withUnused m d := by cases m <;> rfl
theorem State.withUnused_jump (v : Word) :
    (s.withUnused m d).jump v = (s.jump v).withUnused m d := by cases m <;> rfl
theorem State.withUnused_setRb (v : Word) :
    (s.withUnused m d).setRb v = (s.setRb v).withUnused m d := by cases m <;> rfl
theorem State.withUnused_setHalt :
    (s.withUnused m d).setHalt = s.setHalt.withUnused m d := by cases m <;> rfl
theorem State.withUnused_raise (t : Trap) :
    (s.withUnused m d).raise t = (s.raise t).withUnused m d := by cases m <;> rfl
theorem State.withUnused_respond (r : Response) :
    (s.withUnused m d).respond r = (s.respond r).withUnused m d := by cases m <;> rfl
theorem State.withUnused_goOn (c : RunCommand) :
    (s.withUnused m d).goOn c = (s.goOn c).withUnused m d := by cases m <;> rfl

/-! The fetch, the operands and the stop before an instruction do not read it. -/

@[simp] theorem State.withUnused_memRead (a : Int) : (s.withUnused m d).memRead a = s.memRead a := by
  simp only [State.memRead, State.withUnused_cfg, State.withUnused_mem]

@[simp] theorem State.withUnused_readOperand (o : Operand) :
    (s.withUnused m d).readOperand o = s.readOperand o := by
  simp only [State.readOperand, State.relativeAddress, State.withUnused_memRead, State.withUnused_rb]

@[simp] theorem State.withUnused_checkAddress (a : Int) :
    (s.withUnused m d).checkAddress a = s.checkAddress a := by
  simp only [State.checkAddress, State.withUnused_cfg]

@[simp] theorem State.withUnused_writeAddress (i : Nat) (o : Operand) :
    (s.withUnused m d).writeAddress i o = s.writeAddress i o := by
  simp only [State.writeAddress, State.relativeAddress, State.withUnused_checkAddress,
    State.withUnused_mem, State.withUnused_pc, State.withUnused_rb]

@[simp] theorem State.withUnused_stopsBefore (c : RunCommand) :
    (s.withUnused m d).stopsBefore c = s.stopsBefore c := by
  simp only [State.stopsBefore, State.inputAtPc, State.withUnused_cfg, State.withUnused_mem,
    State.withUnused_pc]

@[simp] theorem State.withUnused_fetchArgs (n i : Nat) :
    (s.withUnused m d).fetchArgs i n = s.fetchArgs i n := by
  induction n generalizing i with
  | zero => rfl
  | succ n ih => simp only [State.fetchArgs, State.withUnused_memRead, State.withUnused_pc, ih]

@[simp] theorem State.withUnused_fetchInstr : (s.withUnused m d).fetchInstr = s.fetchInstr := by
  simp only [State.fetchInstr, State.decodeAt, State.withUnused_memRead, State.withUnused_pc,
    State.withUnused_cfg, State.withUnused_fetchArgs]

/-! ### The phases of an instruction -/

theorem State.withUnused_binaryToCell (a b c : Operand) (f : Word → Word → Except Trap Word) :
    (s.withUnused m d).binaryToCell a b c f = (·.withUnused m d) <$> s.binaryToCell a b c f := by
  simp only [State.binaryToCell, State.withUnused_readOperand, State.withUnused_writeAddress,
    State.withUnused_setCell, State.withUnused_advance, map_bind]
  rfl

theorem State.withUnused_jumpWhen (a b : Operand) (taken : Word → Bool) :
    (s.withUnused m d).jumpWhen a b taken = (·.withUnused m d) <$> s.jumpWhen a b taken := by
  have hnext (x y : Word) : (if taken x then (s.withUnused m d).jump y else (s.withUnused m d).advance 3) =
      (if taken x then s.jump y else s.advance 3).withUnused m d := by
    rw [State.withUnused_jump, State.withUnused_advance, apply_ite (State.withUnused · m d)]
  simp only [State.jumpWhen, State.withUnused_readOperand, hnext, map_bind]
  rfl

variable {s m}

/-- An output of a step in mode `m` goes to the channel of `m`. -/
theorem State.withUnused_emit (hm : s.ioMode = m) (v : Word) :
    (s.withUnused m d).emit v = (s.emit v).withUnused m d := by
  have hm' : (s.withUnused m d).ioMode = m := by rw [State.withUnused_ioMode, hm]
  cases m with
  | batch => rw [State.emit_batch _ v hm, State.emit_batch _ v hm']; rfl
  | step => rw [State.emit_step _ v hm, State.emit_step _ v hm']; rfl

/-- `IN` in mode `m` takes its input from the channel of `m`. -/
theorem phases_inp_withUnused (hm : s.ioMode = m) (c : Operand) :
    phases (.inp c) (s.withUnused m d) = (·.withUnused m d) <$> phases (.inp c) s := by
  have hm' : (s.withUnused m d).ioMode = m := by rw [State.withUnused_ioMode, hm]
  have htarget := s.withUnused_writeAddress m d 1 c
  cases ht : s.writeAddress 1 c with
  | error e => rw [phases_inp_of_bad_target ht, phases_inp_of_bad_target (htarget.trans ht)]; rfl
  | ok t =>
    rw [ht] at htarget
    cases m with
    | batch =>
      cases hq : s.inQ with
      | nil =>
        rw [phases_inp_of_no_input ht (State.readInput_exhausted hm hq),
          phases_inp_of_no_input htarget (State.readInput_exhausted hm' hq)]
        rfl
      | cons v q =>
        rw [phases_inp_of_input ht (State.readInput_batch hm hq),
          phases_inp_of_input htarget (State.readInput_batch hm' hq)]
        rfl
    | step =>
      rw [phases_inp_of_input ht (State.readInput_step hm),
        phases_inp_of_input htarget (State.readInput_step hm')]
      rfl

/-- The phases of an instruction executed in mode `m` commute with it. -/
theorem phases_withUnused (hm : s.ioMode = m) (i : Instr) :
    phases i (s.withUnused m d) = (·.withUnused m d) <$> phases i s := by
  cases i with
  | add a b c | mul a b c =>
    simp only [phases, State.withUnused_cfg]
    exact s.withUnused_binaryToCell m d a b c _
  | lt a b c | eq a b c => exact s.withUnused_binaryToCell m d a b c _
  | jt a b | jf a b => exact s.withUnused_jumpWhen m d a b _
  | inp c => exact phases_inp_withUnused d hm c
  | out a =>
    simp only [phases, State.withUnused_readOperand, State.withUnused_emit d hm,
      State.withUnused_advance, map_bind]
    rfl
  | arb a =>
    simp only [phases, State.withUnused_readOperand, State.withUnused_cfg, State.withUnused_rb,
      State.withUnused_setRb, State.withUnused_advance, map_bind]
    rfl
  | halt => exact congrArg Except.ok (s.withUnused_setHalt m d)

theorem exec_withUnused (hm : s.ioMode = m) {i : Instr} {s' : State} (h : exec i s = .next s') :
    exec i (s.withUnused m d) = .next (s'.withUnused m d) := by
  rcases exec_next h with hok | ⟨t, ht, rfl⟩
  · exact exec_of_phases_ok (by rw [phases_withUnused d hm, hok]; rfl)
  · rw [← State.withUnused_raise]
    exact exec_of_phases_error (by rw [phases_withUnused d hm, ht]; rfl)

/-! ### The step -/

/-- The output that the run loop looks at is in the channel of `m`. -/
theorem State.withUnused_lastOutput (hm : s.ioMode = m) :
    (s.withUnused m d).lastOutput = s.lastOutput := by
  simp only [State.lastOutput, State.withUnused_ioMode, hm]
  cases m <;> rfl

theorem State.withUnused_afterOutcome (c : RunCommand) (o : StepOutcome) :
    (s.withUnused m d).afterOutcome c o = (s.afterOutcome c o).withUnused m d := by
  cases c with
  | eval => exact s.withUnused_goOn m d _
  | pipe =>
    cases o with
    | output v => exact s.withUnused_respond m d _
    | _ => exact s.withUnused_goOn m d _
  | consumeSingleInput consumed => cases o <;> exact s.withUnused_goOn m d _

theorem State.withUnused_afterInstr (hm : s.ioMode = m) (c : RunCommand) (i : Instr) :
    (s.withUnused m d).afterInstr c i = (s.afterInstr c i).withUnused m d := by
  have hout : (s.withUnused m d).stepOutcome i = s.stepOutcome i := by
    simp only [State.stepOutcome, State.withUnused_lastOutput d hm]
  simp only [State.afterInstr, State.withUnused_faulted, State.withUnused_fault, hout,
    State.withUnused_respond, State.withUnused_afterOutcome,
    apply_ite (State.withUnused · m d)]

/-- The I/O mode is that of the command in progress, which no instruction changes. -/
theorem exec_ioMode {i : Instr} {s s' : State} (h : exec i s = .next s') : s'.ioMode = s.ioMode := by
  obtain ⟨-, -, -, hport, -⟩ := frameOfEveryInstruction i s s' h
  rw [State.ioMode, State.ioMode, hport]

/-- A step taken in mode `m` commutes with it: the step does not depend on the channel it does not use. -/
theorem step_withUnused (hm : s.ioMode = m) {s' : State} (h : step s = .next s') :
    step (s.withUnused m d) = .next (s'.withUnused m d) := by
  rcases step_cases h with ⟨hidle, rfl⟩ | ⟨c, hc, hpass⟩
  · exact step_of_not_running (by rw [State.withUnused_isRunning, hidle])
  rw [step_of_running ((s.withUnused_port m d).trans hc)]
  rcases hpass with ⟨hf, rfl⟩ | ⟨hf, hh, rfl⟩ | ⟨hf, hh, hb, rfl⟩ |
    ⟨hf, hh, hb, ⟨t, ht, rfl⟩ | ⟨i, s₁, hi, he, rfl⟩⟩
  · simp [State.loopPass, hf, State.withUnused_respond]
  · simp [State.loopPass, hf, hh, State.withUnused_respond]
  · simp [State.loopPass, hf, hh, hb, State.withUnused_respond]
  · simp [State.loopPass, hf, hh, hb, State.execute, ht, State.failFetch, State.withUnused_raise,
      State.withUnused_respond]
  · have hm₁ : s₁.ioMode = m := (exec_ioMode he).trans hm
    simp [State.loopPass, hf, hh, hb, State.execute, hi, exec_withUnused d hm he,
      State.withUnused_afterInstr d hm₁]

/-- A step taken in mode `m` leaves the channel it does not use as it was. -/
theorem step_keeps_unused (hm : s.ioMode = m) {s' : State} (h : step s = .next s') :
    s' = s'.withUnused m s := by
  have hsame := step_withUnused s hm h
  rw [State.withUnused_self, h] at hsame
  exact Host.Outcome.next.inj hsame

end WithUnused

/-- Settles O46: the step commutes with another content of the unused channel, and keeps its own. -/
theorem ioModeKeepsToItsOwnChannel : Obligations.IoModeKeepsToItsOwnChannel := by
  refine ⟨fun s s' q o hm h => ?_, fun s s' x y hm h => ?_⟩
  · have hkept := step_keeps_unused hm h
    exact ⟨(congrArg State.inQ hkept :), (congrArg State.outSeq hkept :),
      step_withUnused { s with inQ := q, outSeq := o } hm h⟩
  · have hkept := step_keeps_unused hm h
    exact ⟨(congrArg State.inSlot hkept :), (congrArg State.outSlot hkept :),
      step_withUnused { s with inSlot := x, outSlot := y } hm h⟩

end Sys2Proof.Machine
end

section
/-! PROOFS. 43_jumps.md: `JT` and `JF` where their operands resolve (R160 to R162), and the fetch from a target
out of bounds (R162, 60_exceptions.md R261). -/

namespace Sys2Proof.Machine

/-! ## `JT` and `JF` (R160, R161) -/

/-- A jump taken and an advance write `PC` alone. -/
theorem State.jump_or_advance_eq (s : State) (p : Prop) [Decidable p] (v : Word) (k : Nat) :
    (if p then s.jump v else s.advance k) = { s with pc := if p then v else s.pc + BitVec.ofNat 64 k } := by
  split
  · rfl
  · rfl

/-- With both operands resolved, an instruction of this shape loads the second, or advances by 3, as the test
of the first decides. -/
theorem exec_of_jumpWhen {i : Instr} {s : State} {a b : Operand} {x y : Word} {taken : Word → Bool}
    (hi : phases i s = s.jumpWhen a b taken) (hx : s.readOperand a = .ok x) (hy : s.readOperand b = .ok y) :
    exec i s = .next { s with pc := if taken x = true then y else s.pc + 3 } := by
  apply exec_of_phases_ok
  rw [hi, State.jumpWhen_ok]
  exact ⟨x, y, hx, hy, (s.jump_or_advance_eq _ y 3).symm⟩

/-- The jumps test the signed value, which is 0 for the word 0 alone. -/
theorem toInt_eq_zero_iff (x : Word) : x.toInt = 0 ↔ x = 0 := BitVec.toInt_inj (y := 0#64)

/-- Settles O20: the test of `JT` is that the condition is not 0. -/
theorem jumpIfTrueLoadsTheTarget : Obligations.JumpIfTrueLoadsTheTarget := by
  intro s a b x y hx hy
  rw [exec_of_jumpWhen (i := .jt a b) rfl hx hy]
  simp only [decide_eq_true_eq, ne_eq, toInt_eq_zero_iff]

/-- Settles O21: the test of `JF` is that the condition is 0. -/
theorem jumpIfFalseLoadsTheTarget : Obligations.JumpIfFalseLoadsTheTarget := by
  intro s a b x y hx hy
  rw [exec_of_jumpWhen (i := .jf a b) rfl hx hy]
  simp only [decide_eq_true_eq, toInt_eq_zero_iff]

/-! ## A `PC` out of bounds (R162, 60_exceptions.md R261) -/

/-- The error of the cell at `PC` is the first of the fetch. -/
theorem State.fetchInstr_of_pc_outOfBounds {s : State} (h : inBounds s.cfg s.pc.toInt = false) :
    s.fetchInstr = .error (.outOfBoundsAddress s.pc.toInt) := by
  rw [State.fetchInstr, State.memRead_error.2 ⟨h, rfl⟩, error_bind]

/-- No command stops before an instruction that is not in memory: the stop looks at the cell at `PC`. -/
theorem State.stopsBefore_of_pc_outOfBounds {s : State} (h : inBounds s.cfg s.pc.toInt = false)
    (c : RunCommand) : s.stopsBefore c = false := by
  cases c with
  | eval => rfl
  | pipe => rfl
  | consumeSingleInput consumed => simp [State.stopsBefore, State.inputAtPc, h]

/-- A step that reaches the fetch and finds an error there records it and ends the command with it. -/
theorem step_of_fetchInstr_error {s : State} {c : RunCommand} {t : Trap} (hp : s.port = .running c)
    (hf : s.faulted = false) (hh : s.halt = false) (hb : s.stopsBefore c = false)
    (ht : s.fetchInstr = .error t) : step s = .next (s.failFetch t) := by
  rw [step_of_running hp]
  simp [State.loopPass, State.execute, hf, hh, hb, ht]

/-- Settles O31: no command stops before the fetch, which fails at `PC`. -/
theorem badPcFaultsAtTheFetch : Obligations.BadPcFaultsAtTheFetch := by
  intro s c hp hf hh hpc
  rw [← inBounds_iff, Bool.not_eq_true] at hpc
  exact ⟨_, rfl, step_of_fetchInstr_error hp hf hh (State.stopsBefore_of_pc_outOfBounds hpc c)
    (State.fetchInstr_of_pc_outOfBounds hpc)⟩

end Sys2Proof.Machine
end

section
/-! PROOFS. 44_compare.md: `LT` and `EQ` where their operands and target resolve (R180, R181). -/

namespace Sys2Proof.Machine

/-- The word of a decided comparison is 1 where it holds and 0 where it does not. -/
theorem boolWord_decide (p : Prop) [Decidable p] : boolWord (decide p) = if p then 1 else 0 := by
  simp only [boolWord, decide_eq_true_eq]

/-- Settles O15: the computation of `LT` is the word of the signed comparison, which never raises. -/
theorem lessThanStoresTheSignedComparison : Obligations.LessThanStoresTheSignedComparison := by
  intro s a b c x y t hinv hx hy ht
  rw [← boolWord_decide]
  exact exec_stores_of_binaryToCell (i := .lt a b c) rfl hinv hx hy ht rfl

/-- Settles O16: `EQ` compares signed values, and these are equal where the words are. -/
theorem equalsStoresTheComparison : Obligations.EqualsStoresTheComparison := by
  intro s a b c x y t hinv hx hy ht
  simp only [← BitVec.toInt_inj (x := x), ← boolWord_decide]
  exact exec_stores_of_binaryToCell (i := .eq a b c) rfl hinv hx hy ht rfl

end Sys2Proof.Machine
end

section
/-! PROOFS. 45_base_halt.md: `ARB` where it completes (R200) and `HALT` (R201). -/

namespace Sys2Proof.Machine

/-- `ARB` stores the result of `Arith(RB + x)` in `RB`; the operand is read before `RB` is written (R200). -/
theorem exec_arb_of_arith_ok {s : State} {a : Operand} {x r : Word} (hx : s.readOperand a = .ok x)
    (hr : arith s.cfg (s.rb.toInt + x.toInt) = .ok r) :
    exec (.arb a) s = .next ((s.setRb r).advance 2) := by
  apply exec_of_phases_ok
  rw [phases, hx, ok_bind, hr, ok_bind]

/-- Settles O22: `Arith` stores the sum where it fits, and under `wrap` whatever it is. -/
theorem arbAddsToTheRelativeBase : Obligations.ArbAddsToTheRelativeBase := by
  intro s a x hx hstored
  exact exec_arb_of_arith_ok hx (arith_of_fits_or_wrap hstored)

/-- Settles O23: the phases of `HALT` are `setHalt` alone, which has no operand to resolve and no advance. -/
theorem haltSetsOnlyTheFlag : Obligations.HaltSetsOnlyTheFlag := by
  intro s
  have hphases : phases .halt s = .ok s.setHalt := rfl
  exact exec_of_phases_ok hphases

end Sys2Proof.Machine
end

section
/-! PROOFS. 46_host_interface.md: the step that executes the instruction at `PC` (R222 to R224), its stops
(R224, R227), the transitions of `STATUS` (R232), and what a run command stages, returns and refuses (R221,
R225 to R227, R231, R234). -/

namespace Sys2Proof.Machine

/-! ## The fetch and the decode of the cells at `PC` (R222) -/

/-- The cells at `PC` lie in memory, and each is the cell that many places after `PC`. -/
theorem State.cellsAtPc_spec (s : State) {k : Nat} (hk : k < s.cellsAtPc.length) :
    (0 ≤ s.pc.toInt ∧ s.pc.toInt + k < s.cfg.memSize) ∧
      s.cellsAtPc[k] = s.mem.read (s.pc.toInt.toNat + k) := by
  by_cases hb : inBounds s.cfg s.pc.toInt = true
  · have hcells : s.cellsAtPc = (List.range (min 4 (s.cfg.memSize - s.pc.toInt.toNat))).map fun k =>
        s.mem.read (s.pc.toInt.toNat + k) := by rw [State.cellsAtPc, if_pos hb]
    rw [hcells, List.length_map, List.length_range] at hk
    rw [inBounds_iff] at hb
    exact ⟨by omega, by simp [hcells]⟩
  · rw [State.cellsAtPc, if_neg hb] at hk
    exact absurd hk (Nat.not_lt_zero k)

theorem State.decodeAt_of_decodeCell {s : State} {cell : Word} {d : DecodedCell}
    (h : decodeCell s.cfg.excess cell = .ok d) : s.decodeAt cell = .ok d := by
  simp only [State.decodeAt, h]

/-- The fetch answers the instruction that the cells at `PC` decode to. -/
theorem State.fetchInstr_of_decode {s : State} {i : Instr} {rest : List Word}
    (h : decode s.cfg.excess s.cellsAtPc = .ok (i, rest)) : s.fetchInstr = .ok i := by
  obtain ⟨cell, raw, d, hcells, hcell, hraw, rfl⟩ := decode_ok h
  have hat (k : Nat) (hk : k < (cell :: (raw ++ rest)).length) :
      (0 ≤ s.pc.toInt ∧ s.pc.toInt + k < s.cfg.memSize) ∧
        (cell :: (raw ++ rest))[k] = s.mem.read (s.pc.toInt.toNat + k) := by
    have hspec := s.cellsAtPc_spec (k := k) (by rwa [hcells])
    simpa only [hcells] using hspec
  obtain ⟨⟨hpc, hend⟩, -⟩ := hat raw.length (by simp)
  have hfirst : cell = s.mem.read s.pc.toInt.toNat := (hat 0 (by simp)).2
  have hargs : s.fetchArgs 1 d.op.arity = .ok raw := by
    rw [fetchArgs_of_lt hpc d.op.arity 1 (by omega)]
    refine congrArg Except.ok (List.ext_getElem (by simp [hraw]) fun k _ hk => ?_)
    have hcell := (hat (k + 1) (by simp; omega)).2
    rw [List.getElem_cons_succ, List.getElem_append_left hk] at hcell
    rw [hcell, List.getElem_map, List.getElem_range, Nat.add_comm 1 k]
  rw [State.fetchInstr, memRead_pc ⟨hpc, by omega⟩, ok_bind, ← hfirst,
    State.decodeAt_of_decodeCell hcell, ok_bind, hargs, ok_bind]

/-! ## The passes of the run loop (R224) -/

theorem State.exists_running {s : State} (h : s.isRunning = true) : ∃ c, s.port = .running c := by
  unfold State.isRunning at h
  split at h
  · next c hp => exact ⟨c, hp⟩
  · simp at h
  · simp at h

section Passes

variable {s : State} {c : RunCommand} (hp : s.port = .running c) (hf : s.faulted = false)
include hp hf

theorem step_of_halted (hh : s.halt = true) : step s = .next (s.respond c.haltedResponse) := by
  rw [step_of_running hp]
  simp [State.loopPass, hf, hh]

theorem step_of_stopsBefore (hh : s.halt = false) (hb : s.stopsBefore c = true) :
    step s = .next (s.respond .ok) := by
  rw [step_of_running hp]
  simp [State.loopPass, hf, hh, hb]

/-- A step that fetches an instruction is the instruction, and then what the command does after it. -/
theorem step_of_fetchInstr_ok {s₁ : State} {i : Instr} (hh : s.halt = false)
    (hb : s.stopsBefore c = false) (hi : s.fetchInstr = .ok i) (he : exec i s = .next s₁) :
    step s = .next (s₁.afterInstr c i) := by
  rw [step_of_running hp]
  simp [State.loopPass, State.execute, hf, hh, hb, hi, he]

end Passes

/-- Settles O28: the instruction that the cells at `PC` decode to is the one fetched. -/
theorem stepExecutesTheDecodedInstruction : Obligations.StepExecutesTheDecodedInstruction := by
  intro s s' c i rest hp hf hh hb hdecode he
  exact step_of_fetchInstr_ok hp hf hh hb (State.fetchInstr_of_decode hdecode) he

/-- Settles O39: the pass of a halted Machine is its command's halted response. -/
theorem haltedMachineExecutesNothing : Obligations.HaltedMachineExecutesNothing := by
  intro s hf hh
  exact ⟨fun hp => step_of_halted hp hf hh, fun hp => step_of_halted hp hf hh,
    fun _ hp => step_of_halted hp hf hh⟩

/-! ## After an instruction (R223, R225 to R227) -/

theorem State.stepOutcome_of_out {i : Instr} (s : State) (h : i.opcode = .out) :
    s.stepOutcome i = .output s.lastOutput := by
  cases i with
  | out a => rfl
  | _ => cases h

/-- The output that `pipe` looks at is in `OUT_SLOT`. -/
theorem State.lastOutput_of_pipe {s : State} (hp : s.port = .running .pipe) :
    s.lastOutput = s.outSlot := by
  simp only [State.lastOutput, State.ioMode, hp, RunCommand.ioMode]

/-- `pipe` goes on after an instruction other than `OUT`. -/
theorem State.afterOutcome_pipe_of_ne_out {i : Instr} (s : State) (h : i.opcode ≠ .out) :
    s.afterOutcome .pipe (s.stepOutcome i) = s.goOn .pipe := by
  cases i with
  | out a => exact absurd rfl h
  | _ => rfl

/-- `consumeSingleInput` goes on after every instruction, and its latch notes an `IN`. -/
theorem State.afterOutcome_consumeSingleInput (s : State) (consumed : Bool) (i : Instr) :
    s.afterOutcome (.consumeSingleInput consumed) (s.stepOutcome i) =
      s.goOn (.consumeSingleInput (consumed || decide (i.opcode = .inp))) := by
  cases i <;> simp [State.stepOutcome, State.afterOutcome, Instr.opcode]

/-- Settles O29: a fault ends the command; otherwise each command looks at the step outcome. -/
theorem commandGoesOnAsItsRuleSays : Obligations.CommandGoesOnAsItsRuleSays := by
  refine fun s i => ⟨fun c hf => State.afterInstr_of_faulted c i hf, fun hf => ?_⟩
  simp only [State.afterInstr_of_not_faulted _ i hf]
  refine ⟨rfl, fun hop hp => ?_, fun hop => s.afterOutcome_pipe_of_ne_out hop, fun consumed => ?_⟩
  · rw [s.stepOutcome_of_out hop, State.lastOutput_of_pipe hp]
    rfl
  · exact s.afterOutcome_consumeSingleInput consumed i

/-! ## The stop before a second input (R227) -/

theorem State.inputAtPc_iff (s : State) :
    s.inputAtPc = true ↔ 0 ≤ s.pc.toInt ∧ s.pc.toInt < s.cfg.memSize ∧
      0 ≤ (s.mem.read s.pc.toInt.toNat).toInt ∧ (s.mem.read s.pc.toInt.toNat).toInt % 100 = 3 := by
  simp only [State.inputAtPc, Bool.and_eq_true, decide_eq_true_eq, inBounds_iff]
  omega

/-- A command stops before an instruction where its latch is set and the cell at `PC` is of class `IN`. -/
theorem State.stopsBefore_iff (s : State) (c : RunCommand) :
    s.stopsBefore c = true ↔ c = .consumeSingleInput true ∧ s.inputAtPc = true := by
  cases c with
  | eval | pipe => simp [State.stopsBefore]
  | consumeSingleInput consumed => simp [State.stopsBefore]

/-- Settles O47: the stop is decided by `stopsBefore_iff`, and a step that does not stop fetches. -/
theorem consumeStopsAtTheSecondInput : Obligations.ConsumeStopsAtTheSecondInput := by
  refine fun s hf hh => ⟨fun hp hpc hend hcell hclass => ?_, fun c hp hnot => ?_⟩
  · exact step_of_stopsBefore hp hf hh
      ((s.stopsBefore_iff _).2 ⟨rfl, s.inputAtPc_iff.2 ⟨hpc, hend, hcell, hclass⟩⟩)
  · have hb : s.stopsBefore c = false := by
      rw [← Bool.not_eq_true, State.stopsBefore_iff, State.inputAtPc_iff]
      exact fun ⟨hc, hin⟩ => hnot hc hin
    exact ⟨fun t ht => step_of_fetchInstr_error hp hf hh hb ht,
      fun i s₁ hi he => step_of_fetchInstr_ok hp hf hh hb hi he⟩

/-! ## The cell that a step stores to (R222, phase 6) -/

/-- Settles O44: a step that executes an instruction changes memory as the instruction's frame says. -/
theorem stepStoresOnlyAtTheTarget : Obligations.StepStoresOnlyAtTheTarget := by
  intro s s' a h hkept
  rcases step_eq_or_exec h with ⟨f, p, rfl⟩ | ⟨i, s₁, p, -, hi, he, rfl⟩
  · rfl
  · obtain ⟨hmem, -⟩ := frameOfEveryInstruction i s s₁ he
    exact hmem a (hkept i hi)

/-! ## `STATUS` (R32, R232) -/

theorem State.status_eq_faulted_iff (s : State) : s.status = .faulted ↔ s.faulted = true := by
  unfold State.status
  cases s.faulted <;> cases s.halt <;> decide

theorem State.status_eq_halted_iff (s : State) :
    s.status = .halted ↔ s.faulted = false ∧ s.halt = true := by
  unfold State.status
  cases s.faulted <;> cases s.halt <;> decide

theorem State.status_eq_ready_iff (s : State) :
    s.status = .ready ↔ s.faulted = false ∧ s.halt = false := by
  unfold State.status
  cases s.faulted <;> cases s.halt <;> decide

/-- `STATUS` is derived from `FAULT` and `HALT` alone. -/
theorem State.status_congr {s s' : State} (hfault : s'.fault = s.fault) (hhalt : s'.halt = s.halt) :
    s'.status = s.status := by
  rw [State.status, State.status, State.faulted, State.faulted, hfault, hhalt]

theorem State.respond_status (s : State) (r : Response) : (s.respond r).status = s.status := rfl

/-- What the run loop does after an instruction leaves `STATUS` as the instruction left it. -/
theorem State.afterInstr_status (s : State) (c : RunCommand) (i : Instr) :
    (s.afterInstr c i).status = s.status := by
  rw [State.afterInstr_port_only]
  rfl

theorem State.raise_status (s : State) (t : Trap) : (s.raise t).status = .faulted :=
  (s.raise t).status_eq_faulted_iff.2 (s.raise_faulted t)

/-- An instruction other than `HALT` that changes no `FAULT` leaves `STATUS` as it was. -/
theorem exec_status_of_ne_halt {i : Instr} {s s₁ : State} (he : exec i s = .next s₁) (hi : i ≠ .halt)
    (hfault : s₁.fault = s.fault) : s₁.status = s.status := by
  obtain ⟨-, -, -, -, -, hhalt, -⟩ := frameOfEveryInstruction i s s₁ he
  exact State.status_congr hfault (hhalt fun hop => hi (Instr.eq_halt_of_opcode hop))

/-- A step that changes `STATUS` is one from READY that reaches the fetch. -/
theorem step_of_status_ne {s s' : State} (h : step s = .next s') (hne : s'.status ≠ s.status) :
    s.status = .ready ∧ ((∃ t, s.fetchInstr = .error t ∧ s' = s.failFetch t) ∨
      ∃ c i s₁, s.fetchInstr = .ok i ∧ exec i s = .next s₁ ∧ s' = s₁.afterInstr c i) := by
  rcases step_cases h with ⟨-, rfl⟩ | ⟨c, -, ⟨-, rfl⟩ | ⟨-, -, rfl⟩ | ⟨-, -, -, rfl⟩ |
    ⟨hf, hh, -, hfetched⟩⟩
  · exact absurd rfl hne
  · exact absurd (s.respond_status _) hne
  · exact absurd (s.respond_status _) hne
  · exact absurd (s.respond_status _) hne
  · exact ⟨s.status_eq_ready_iff.2 ⟨hf, hh⟩, hfetched.imp_right fun hexec => ⟨c, hexec⟩⟩

/-- HALTED and FAULTED are terminal under every step. -/
theorem step_status_of_not_ready {s s' : State} (h : step s = .next s') (hs : s.status ≠ .ready) :
    s'.status = s.status := by
  by_contra hne
  exact hs (step_of_status_ne h hne).1

/-- A fetched instruction is an `IN` where the cell at `PC` is of that class. -/
theorem State.opcode_of_inputAtPc {s : State} {i : Instr} (hi : s.fetchInstr = .ok i)
    (h : s.inputAtPc = true) : i.opcode = .inp := by
  obtain ⟨d, raw, -, hd, -, rfl⟩ := State.fetchInstr_ok hi
  obtain ⟨-, hnumber, -⟩ := decodeCell_ok hd
  obtain ⟨-, -, hcell, hclass⟩ := s.inputAtPc_iff.1 h
  have hthree : d.op.number = Opcode.inp.number := by
    rw [← hnumber, Opcode.number]
    omega
  have hop := congrArg Opcode.ofNumber hthree
  rw [Opcode.ofNumber_number, Opcode.ofNumber_number] at hop
  rw [DecodedCell.toInstr_opcode, Option.some.inj hop]

/-- No command stops before a `HALT`. -/
theorem State.stopsBefore_of_halt {s : State} (hi : s.fetchInstr = .ok .halt) (c : RunCommand) :
    s.stopsBefore c = false := by
  rw [← Bool.not_eq_true, State.stopsBefore_iff]
  rintro ⟨-, h⟩
  cases State.opcode_of_inputAtPc hi h

/-- From READY a step leads to FAULTED only by an error of the fetch or of the instruction. -/
theorem step_status_faulted {s s' : State} (h : step s = .next s') (hs : s.status = .ready)
    (hs' : s'.status = .faulted) : (∃ t, s.fetchInstr = .error t) ∨
      ∃ i t, s.fetchInstr = .ok i ∧ exec i s = .next (s.raise t) := by
  obtain ⟨-, ⟨t, ht, -⟩ | ⟨c, i, s₁, hi, he, rfl⟩⟩ := step_of_status_ne h (by simp [hs, hs'])
  · exact .inl ⟨t, ht⟩
  rcases exec_next he with hok | ⟨t, -, rfl⟩
  · obtain ⟨-, -, hfault, -⟩ := phases_frame hok
    obtain ⟨hf, -⟩ := s.status_eq_ready_iff.1 hs
    rw [State.afterInstr_status, State.status_eq_faulted_iff, State.faulted, hfault] at hs'
    exact absurd hs' (Bool.eq_false_iff.1 hf)
  · exact .inr ⟨i, t, hi, he⟩

/-- From READY a step that executes `HALT` leads to HALTED. -/
theorem step_status_of_halt {s s' : State} (h : step s = .next s') (hs : s.status = .ready)
    (hi : s.fetchInstr = .ok .halt) (hrun : s.isRunning = true) : s'.status = .halted := by
  obtain ⟨hf, hh⟩ := s.status_eq_ready_iff.1 hs
  obtain ⟨c, hp⟩ := State.exists_running hrun
  rw [step_of_fetchInstr_ok hp hf hh (State.stopsBefore_of_halt hi c) hi (haltSetsOnlyTheFlag s)] at h
  obtain rfl := Host.Outcome.next.inj h
  rw [State.afterInstr_status, State.status_eq_halted_iff]
  exact ⟨hf, rfl⟩

/-- A `pipe` that returns an output has executed an `OUT`, which leaves READY. -/
theorem step_status_of_pipe_output {s s' : State} {v : Word} (h : step s = .next s')
    (hp : s.port = .running .pipe) (hv : s'.port = .returned (.output v)) : s'.status = .ready := by
  rcases step_cases h with ⟨hidle, -⟩ | ⟨c, hc, hpass⟩
  · simp [State.isRunning, hp] at hidle
  obtain rfl : RunCommand.pipe = c := Port.running.inj (hp.symm.trans hc)
  rcases hpass with ⟨-, rfl⟩ | ⟨-, -, rfl⟩ | ⟨-, -, -, rfl⟩ |
    ⟨hf, hh, -, ⟨t, -, rfl⟩ | ⟨i, s₁, -, he, rfl⟩⟩
  · cases hv
  · cases hv
  · cases hv
  · cases hv
  obtain ⟨hended, hgoes⟩ := commandGoesOnAsItsRuleSays s₁ i
  cases hf₁ : s₁.faulted with
  | true =>
    rw [hended .pipe hf₁] at hv
    cases hv
  | false =>
    obtain ⟨-, -, hgoesOn, -⟩ := hgoes hf₁
    obtain ⟨-, -, -, -, -, hhalt, -⟩ := frameOfEveryInstruction i s s₁ he
    rw [State.afterInstr_status, State.status_eq_ready_iff]
    refine ⟨hf₁, (hhalt fun hop => ?_).trans hh⟩
    rw [hgoesOn (by rw [hop]; decide)] at hv
    cases hv

/-- Settles O45: each transition by the way the step can go, and the host commands by their cases. -/
theorem statusChangesAsTheProtocolSays : Obligations.StatusChangesAsTheProtocolSays := by
  refine ⟨fun s s' _ h => ⟨fun hs => ?_, fun hs => ?_, fun hs => ⟨fun hs' => ?_,
    step_status_of_halt h hs, step_status_faulted h hs, fun c hp hb => ?_⟩,
    fun v => step_status_of_pipe_output h⟩, fun s s' c h => ?_⟩
  · exact (step_status_of_not_ready h (by simp [hs])).trans hs
  · exact (step_status_of_not_ready h (by simp [hs])).trans hs
  · obtain ⟨-, hset⟩ := onlyHaltSetsAndOnlyResetClearsTheFlag.1 s s' h
    exact hset (s.status_eq_ready_iff.1 hs).2 (s'.status_eq_halted_iff.1 hs').2
  · obtain ⟨hf, hh⟩ := s.status_eq_ready_iff.1 hs
    have hexec {i : Instr} {s₁ : State} (hi : s.fetchInstr = .ok i) (he : exec i s = .next s₁) :
        s'.status = s₁.status := by
      rw [step_of_fetchInstr_ok hp hf hh hb hi he] at h
      rw [← Host.Outcome.next.inj h, State.afterInstr_status]
    refine ⟨fun t ht => ?_, fun i t hi he => ?_, fun i s₁ hi hne he hfault => ?_⟩
    · rw [step_of_fetchInstr_error hp hf hh hb ht] at h
      obtain rfl := Host.Outcome.next.inj h
      exact s.raise_status t
    · exact (hexec hi he).trans (s.raise_status t)
    · exact ((hexec hi he).trans (exec_status_of_ne_halt he hne hfault)).trans hs
  · rcases State.issue_cases h with ⟨rfl, rfl⟩ | ⟨program, rfl, -, rfl⟩ | ⟨hc, -, q, x, p, rfl⟩
    · exact ⟨fun _ => rfl, fun hne => absurd rfl hne⟩
    · exact ⟨fun hc => (by cases hc), fun _ => rfl⟩
    · exact ⟨fun hc' => absurd hc' hc, fun _ => rfl⟩

/-! ## Fuel (R234) -/

/-- A command that has returned has returned under any fuel. -/
theorem State.runToReturn_of_returned {s : State} {r : Response} (h : s.port = .returned r)
    (fuel : Nat) : s.runToReturn fuel = some (s, r) := by
  cases fuel <;> simp only [State.runToReturn, h]

/-- The ways a run returns within its fuel: at once, or by a step and a run within one less. -/
theorem State.runToReturn_cases {fuel : Nat} {s : State} {r : State × Response}
    (h : s.runToReturn fuel = some r) :
    (∃ resp, s.port = .returned resp ∧ r = (s, resp)) ∨
      ∃ n c s', fuel = n + 1 ∧ s.port = .running c ∧ step s = .next s' ∧ s'.runToReturn n = some r := by
  cases hp : s.port with
  | idle => cases fuel <;> simp [State.runToReturn, hp] at h
  | returned resp =>
    rw [State.runToReturn_of_returned hp] at h
    exact .inl ⟨resp, rfl, (Option.some.inj h).symm⟩
  | running c =>
    cases fuel with
    | zero => simp [State.runToReturn, hp] at h
    | succ n =>
      simp only [State.runToReturn, hp] at h
      split at h
      · next s' hs => exact .inr ⟨n, c, s', rfl, rfl, hs, h⟩
      · simp at h
      · simp at h

theorem State.runToReturn_of_step {s s' : State} {c : RunCommand} (hp : s.port = .running c)
    (hs : step s = .next s') (fuel : Nat) : s.runToReturn (fuel + 1) = s'.runToReturn fuel := by
  simp only [State.runToReturn, hp, hs]

/-- A run that returns returns the same under more fuel: it takes the same steps. -/
theorem State.runToReturn_add {fuel : Nat} (more : Nat) {s : State} {r : State × Response}
    (h : s.runToReturn fuel = some r) : s.runToReturn (fuel + more) = some r := by
  induction fuel generalizing s with
  | zero =>
    rcases State.runToReturn_cases h with ⟨resp, hp, rfl⟩ | ⟨n, c, s', hn, -⟩
    · exact State.runToReturn_of_returned hp _
    · cases hn
  | succ n ih =>
    rcases State.runToReturn_cases h with ⟨resp, hp, rfl⟩ | ⟨n', c, s', hn, hp, hs, h'⟩
    · exact State.runToReturn_of_returned hp _
    · cases hn
      rw [Nat.add_right_comm, State.runToReturn_of_step hp hs, ih h']

/-- Settles O49: the command starts in one state whatever the fuel, and the run from there does not depend on
fuel it does not use. -/
theorem moreFuelGivesTheSameResult : Obligations.MoreFuelGivesTheSameResult := by
  intro fuel more s c r h
  unfold State.runCommand at h ⊢
  split at h
  · exact State.runToReturn_add more h
  · simp at h
  · simp at h

/-! ## Issuing a command (R221, R225 to R227) -/

/-- On a Machine with no fault a run command stages its input and runs. -/
theorem State.startRun_of_not_faulted {s : State} (hf : s.faulted = false) (c : RunCommand)
    (stage : State → State) : s.startRun c stage = { stage s with port := .running c } := by
  simp [State.startRun, hf]

section Between

variable {s : State} (h : s.isRunning = false)
include h

/-- Between runs a run command is started. -/
theorem State.issue_eval (inputs : Option (List Word)) :
    s.issue (.eval inputs) = .next (s.startEval inputs) := by
  simp [State.issue, h]

theorem State.issue_pipe (x : Word) : s.issue (.pipe x) = .next (s.startPipe x) := by
  simp [State.issue, h]

theorem State.issue_consumeSingleInput (x : Word) :
    s.issue (.consumeSingleInput x) = .next (s.startConsume x) := by
  simp [State.issue, h]

end Between

/-- Settles O50: each command is started with its own staging. -/
theorem runCommandsStageTheirInputs : Obligations.RunCommandsStageTheirInputs := by
  intro s hidle hf
  have heval (inputs : Option (List Word)) : s.issue (.eval inputs) =
      .next { s with inQ := inputs.getD [], port := .running .eval } := by
    rw [State.issue_eval hidle, State.startEval, State.startRun_of_not_faulted hf]
  refine ⟨heval none, fun inputs => heval (some inputs), fun x => ?_, fun x => ?_⟩
  · rw [State.issue_pipe hidle, State.startPipe, State.startRun_of_not_faulted hf, State.stageInput]
  · rw [State.issue_consumeSingleInput hidle, State.startConsume, State.startRun_of_not_faulted hf,
      State.stageInput]

/-! ## The read ports, and what is refused during a run (R221, R231) -/

/-- Between runs the port of a cell is a bounds-checked read. -/
theorem State.readPort_cell {s : State} (h : s.isRunning = false) (a : Int) :
    s.readPort (.cell a) = if 0 ≤ a ∧ a < (s.cfg.memSize : Int) then .next (.word (s.mem.read a.toNat))
      else .fault (.outOfBoundsAddress a) := by
  simp [State.readPort, h, inBounds]

/-- Settles O54: between runs a port answers its arm of `readPort`. -/
theorem readPortsAnswerTheState : Obligations.ReadPortsAnswerTheState := by
  intro s hidle
  refine ⟨fun a h0 hend => ?_, fun a hout => ?_, ?_⟩
  · rw [State.readPort_cell hidle, if_pos ⟨h0, hend⟩]
  · rw [State.readPort_cell hidle, if_neg hout]
  · simp [State.readPort, hidle]

/-- Settles O55: both test for a run in progress before anything else. -/
theorem noCommandDuringARun : Obligations.NoCommandDuringARun := by
  intro s c p hrun
  exact ⟨by simp [State.issue, hrun], by simp [State.readPort, hrun]⟩

end Sys2Proof.Machine
end

section
/-! PROOFS. 60_exceptions.md: that every error is taken (R261), which errors an instruction raises (R262), their
order (R264), that they change nothing else (R266) and stay until `reset` (R268), and that Machines are
independent (R273). -/

namespace Sys2Proof.Machine

/-! ## A step that records a fault (R261, R266) -/

/-- A step from a Machine with no fault recorded to one with a fault has raised an error, of the fetch or of
the phases of the instruction fetched, and has ended the command with it. -/
theorem step_raises {s s' : State} (hf : s.faulted = false) (h : step s = .next s')
    (hf' : s'.faulted = true) :
    ∃ t, s' = s.failFetch t ∧
      (s.fetchInstr = .error t ∨ ∃ i, s.fetchInstr = .ok i ∧ phases i s = .error t) := by
  have hnot : s.status ≠ .faulted := by simp [State.status_eq_faulted_iff, hf]
  have hstatus : s'.status = .faulted := s'.status_eq_faulted_iff.2 hf'
  obtain ⟨-, ⟨t, ht, rfl⟩ | ⟨c, i, s₁, hi, he, rfl⟩⟩ :=
    step_of_status_ne h fun heq => hnot (heq.symm.trans hstatus)
  · exact ⟨t, rfl, .inl ht⟩
  rcases exec_next he with hok | ⟨t, ht, rfl⟩
  · obtain ⟨-, -, hfault, -⟩ := phases_frame hok
    rw [State.afterInstr_status, State.status_eq_faulted_iff, State.faulted, hfault] at hstatus
    exact absurd hstatus (Bool.eq_false_iff.1 hf)
  · exact ⟨t, State.afterInstr_of_faulted c i (s.raise_faulted t), .inr ⟨i, hi, ht⟩⟩

/-- Settles O36: raising an error writes `FAULT` with `PC` in its record, and the end of the command writes
the response. -/
theorem errorsArePrecise : Obligations.ErrorsArePrecise := by
  intro s s' hf h hf'
  obtain ⟨t, rfl, -⟩ := step_raises hf h hf'
  exact ⟨rfl, t.record_pc s.pc⟩

/-! ## Every error is taken (R261) -/

/-- Settles O32: a Machine with no command in progress stays as it is, and each pass of the run loop answers
a next state. -/
theorem everyStepAnswersNext : Obligations.EveryStepAnswersNext := by
  intro s
  cases hr : s.isRunning with
  | false => exact ⟨s, step_of_not_running hr⟩
  | true =>
    obtain ⟨c, hp⟩ := State.exists_running hr
    rw [step_of_running hp]
    rcases s.loopPass_cases c with ⟨-, h⟩ | ⟨-, -, h⟩ | ⟨-, -, -, h⟩ |
      ⟨-, -, -, ⟨t, -, h⟩ | ⟨i, s₁, -, -, h⟩⟩
    all_goals exact ⟨_, h⟩

/-! ## The order of the errors (R264) -/

theorem State.fetchInstr_of_decodeCell_error {s : State} {e : DecodeError}
    (hpc : 0 ≤ s.pc.toInt ∧ s.pc.toInt < s.cfg.memSize)
    (he : decodeCell s.cfg.excess (s.mem.read s.pc.toInt.toNat) = .error e) :
    s.fetchInstr = .error (.decode e) := by
  rw [State.fetchInstr, memRead_pc hpc, ok_bind, State.decodeAt, he, error_bind]

/-- Once the cell at `PC` is decoded, the argument fetch alone decides. -/
theorem State.fetchInstr_of_decodeCell_ok {s : State} {d : DecodedCell}
    (hpc : 0 ≤ s.pc.toInt ∧ s.pc.toInt < s.cfg.memSize)
    (hd : decodeCell s.cfg.excess (s.mem.read s.pc.toInt.toNat) = .ok d) :
    s.fetchInstr = s.fetchArgs 1 d.op.arity >>= fun raw => .ok (d.toInstr raw) := by
  rw [State.fetchInstr, memRead_pc hpc, ok_bind, State.decodeAt_of_decodeCell hd, ok_bind]

/-- Settles O30: the cell at `PC`, its decode and its argument cells are looked at in that order, and the
argument fetch stops at the end of memory. -/
theorem fetchErrorsComeInOrder : Obligations.FetchErrorsComeInOrder := by
  intro s
  refine ⟨fun hout => ?_, fun hpc => ⟨fun e he => State.fetchInstr_of_decodeCell_error hpc he,
    fun d hd => ?_⟩⟩
  · rw [← inBounds_iff, Bool.not_eq_true] at hout
    exact State.fetchInstr_of_pc_outOfBounds hout
  rw [State.fetchInstr_of_decodeCell_ok hpc hd]
  obtain ⟨h0, hend⟩ := hpc
  refine ⟨fun hlong => ?_, fun hfits => ?_⟩
  · rw [fetchArgs_of_ge h0 d.op.arity 1 (by omega) (by omega), error_bind]
  · rw [fetchArgs_of_lt h0 d.op.arity 1 (by omega), ok_bind]
    exact ⟨_, rfl, d.toInstr_opcode _⟩

/-- Settles O26: the phases of every instruction listed begin with its operands in order, and then its target;
the first that does not resolve is the error of the phases. -/
theorem operandErrorsComeInArgumentOrder : Obligations.OperandErrorsComeInArgumentOrder := by
  intro s a b c e
  refine ⟨fun ha i hi => ?_, fun x ha hb i hi => ?_, fun x y ha hb hc i hi => ?_⟩
  · obtain ⟨f, hf⟩ : ∃ f, phases i s = s.readOperand a >>= f := by
      fin_cases hi <;> exact ⟨_, rfl⟩
    exact exec_of_phases_error (by rw [hf, ha, error_bind])
  · obtain ⟨f, hf⟩ : ∃ f : Word → Word → Except Trap State,
        phases i s = s.readOperand a >>= fun x => s.readOperand b >>= f x := by
      fin_cases hi <;> exact ⟨_, rfl⟩
    exact exec_of_phases_error (by rw [hf, ha, ok_bind, hb, error_bind])
  · obtain ⟨f, hf⟩ : ∃ f, phases i s = s.binaryToCell a b c f := by
      fin_cases hi <;> exact ⟨_, rfl⟩
    exact exec_of_phases_error (by
      simp only [hf, State.binaryToCell, ha, hb, hc, ok_bind, error_bind])

/-! ## The errors each instruction can raise (R262) -/

/-- The errors of resolving an argument are of one kind. -/
theorem State.readOperand_error_kind {s : State} {o : Operand} {t : Trap}
    (h : s.readOperand o = .error t) : t.kind = .outOfBoundsAddress := by
  obtain ⟨a, rfl, -⟩ := State.readOperand_error h
  rfl

theorem State.writeAddress_error_kind {s : State} {i : Nat} {o : Operand} {t : Trap}
    (ho : o.canBeTarget = true) (h : s.writeAddress i o = .error t) : t.kind = .outOfBoundsAddress := by
  obtain ⟨a, rfl, -⟩ := State.writeAddress_error ho h
  rfl

theorem State.binaryToCell_error_kind {s : State} {a b c : Operand}
    {f : Word → Word → Except Trap Word} {t : Trap} (hc : c.canBeTarget = true)
    (h : s.binaryToCell a b c f = .error t) :
    t.kind = .outOfBoundsAddress ∨ ∃ x y, f x y = .error t := by
  rcases State.binaryToCell_error h with h | h | h | h
  · exact .inl (State.readOperand_error_kind h)
  · exact .inl (State.readOperand_error_kind h)
  · exact .inl (State.writeAddress_error_kind hc h)
  · exact .inr h

theorem State.jumpWhen_error_kind {s : State} {a b : Operand} {p : Word → Bool} {t : Trap}
    (h : s.jumpWhen a b p = .error t) : t.kind = .outOfBoundsAddress :=
  (State.jumpWhen_error h).elim State.readOperand_error_kind State.readOperand_error_kind

theorem arith_error_kind {c : Config} {v : Int} {t : Trap} (h : arith c v = .error t) :
    t.kind = .arithmeticOverflow := by
  obtain ⟨rfl, -⟩ := arith_error h
  rfl

/-- Every class with an argument is listed with the bounds error. -/
theorem canRaise_outOfBoundsAddress {op : Opcode} (h : 0 < op.arity) :
    canRaise op .outOfBoundsAddress = true := by
  cases op with
  | halt => cases h
  | _ => rfl

/-- The phases of a well-formed instruction raise only what the table lists for its class. -/
theorem canRaise_of_phases_error {i : Instr} {s : State} {t : Trap} (hw : i.wf = true)
    (h : phases i s = .error t) : canRaise i.opcode t.kind = true := by
  cases i with
  | add a b c | mul a b c =>
    rcases State.binaryToCell_error_kind hw h with hk | ⟨x, y, hr⟩
    · rw [hk]; rfl
    · rw [arith_error_kind hr]; rfl
  | lt a b c | eq a b c =>
    rcases State.binaryToCell_error_kind hw h with hk | ⟨x, y, hr⟩
    · rw [hk]; rfl
    · cases hr
  | jt a b | jf a b => rw [State.jumpWhen_error_kind h]; rfl
  | inp c =>
    rcases bind_eq_error.1 h with h | ⟨x, -, h⟩
    · rw [State.writeAddress_error_kind hw h]; rfl
    rcases bind_eq_error.1 h with h | ⟨r, -, h⟩
    · rw [(State.readInput_error h).1]; rfl
    · cases h
  | out a =>
    rcases bind_eq_error.1 h with h | ⟨x, -, h⟩
    · rw [State.readOperand_error_kind h]; rfl
    · cases h
  | arb a =>
    rcases bind_eq_error.1 h with h | ⟨x, -, h⟩
    · rw [State.readOperand_error_kind h]; rfl
    rcases bind_eq_error.1 h with h | ⟨r, -, h⟩
    · rw [arith_error_kind h]; rfl
    · cases h
  | halt => cases h

/-- The decode raises `IllegalWriteMode` only on a class with a write target. -/
theorem writeSlots_ne_nil_of_illegalWriteMode {p : ExcessPolicy} {cell : Word} {e : DecodeError}
    (h : decodeCell p cell = .error e) (hk : (Trap.decode e).kind = .illegalWriteMode) :
    ∃ op : Opcode, op.writeSlots ≠ [] ∧ cell.toInt.toNat % 100 = op.number := by
  rcases decodeCell_error h with ⟨rfl, -⟩ | ⟨op, -, hop, ⟨j, -, -, rfl⟩ | rfl | ⟨j, hj, -⟩⟩
  · cases hk
  · cases hk
  · cases hk
  · exact ⟨op, List.ne_nil_of_mem hj, Opcode.ofNumber_some hop⟩

/-- Settles O37: the error is of the decode, of an argument fetch, which needs an argument, or of the phases of
the instruction decoded. -/
theorem instructionsRaiseOnlyTheListedErrors : Obligations.InstructionsRaiseOnlyTheListedErrors := by
  intro s s' hf h hf' h0 hend
  obtain ⟨t, rfl, hraised⟩ := step_raises hf h hf'
  have hkind : (s.failFetch t).fault.kind = t.kind := t.record_kind s.pc
  rw [hkind]
  rcases hraised with ht | ⟨i, hi, ht⟩
  · rcases State.fetchInstr_error ht with ⟨hout, -⟩ | ⟨e, -, he, rfl⟩ | ⟨d, -, hd, hargs⟩
    · rw [(inBounds_iff _ _).2 ⟨h0, hend⟩] at hout
      cases hout
    · rw [he]
      exact ⟨rfl, writeSlots_ne_nil_of_illegalWriteMode he⟩
    · rw [hd]
      obtain ⟨k, hk, -, rfl⟩ := State.fetchArgs_error hargs
      exact canRaise_outOfBoundsAddress (Nat.zero_lt_of_lt hk)
  · have hlisted := canRaise_of_phases_error (State.fetchInstr_wf hi) ht
    obtain ⟨d, raw, -, hd, -, rfl⟩ := State.fetchInstr_ok hi
    rw [DecodedCell.toInstr_opcode] at hlisted
    rw [hd]
    exact hlisted

/-! ## A recorded fault stays (R268, 46_host_interface.md R224) -/

/-- On a faulted Machine a run command stages nothing and returns the fault. -/
theorem State.startRun_of_faulted {s : State} (hf : s.faulted = true) (c : RunCommand)
    (stage : State → State) : s.startRun c stage = { s with port := .returned (.fault s.fault) } := by
  rw [State.startRun, if_pos hf]

/-- A step of a faulted Machine only ends the command in progress, if there is one, with the fault. -/
theorem step_of_faulted {s s' : State} (hf : s.faulted = true) (h : step s = .next s') :
    (s.isRunning = false ∧ s' = s) ∨ s' = s.respond (.fault s.fault) := by
  have hnot : s.faulted ≠ false := by simp [hf]
  rcases step_cases h with hidle | ⟨c, -, ⟨-, rfl⟩ | ⟨hf', -⟩ | ⟨hf', -⟩ | ⟨hf', -⟩⟩
  · exact .inl hidle
  · exact .inr rfl
  all_goals exact absurd hf' hnot

/-- Between runs `reset` makes the Machine new (R221, 70_reset_and_hazards.md R290). -/
theorem State.issue_reset {s : State} (h : s.isRunning = false) :
    s.issue .reset = .next (State.new s.cfg) := by
  simp [State.issue, h]

theorem State.loadCode_next {s s' : State} {program : List Word} (h : s.loadCode program = .next s') :
    s' = { s with mem := s.mem.writeFrom 0 program } := by
  unfold State.loadCode at h
  split at h
  · cases h
  · exact (Host.Outcome.next.inj h).symm

/-- Settles O38: the run loop and the start of a run command look at the fault before anything else; `loadCode`
does not look at it, and `reset` makes the Machine new. -/
theorem faultIsStickyUntilReset : Obligations.FaultIsStickyUntilReset := by
  intro s hf
  refine ⟨fun s' h => ?_, fun hidle => ⟨fun inputs => ?_, fun x => ⟨?_, ?_⟩,
    fun program s' h => ?_, State.new s.cfg, State.issue_reset hidle, State.new_faulted s.cfg⟩⟩
  · rcases step_of_faulted hf h with ⟨hidle, rfl⟩ | rfl
    · exact ⟨rfl, fun hrun => absurd hrun (Bool.eq_false_iff.1 hidle)⟩
    · exact ⟨rfl, fun _ => rfl⟩
  · rw [State.issue_eval hidle, State.startEval, State.startRun_of_faulted hf]
  · rw [State.issue_pipe hidle, State.startPipe, State.startRun_of_faulted hf]
  · rw [State.issue_consumeSingleInput hidle, State.startConsume, State.startRun_of_faulted hf]
  · rw [State.issue_loadCode hidle] at h
    exact State.loadCode_next h

/-! ## Several Machines (R273) -/

/-- An action that is carried out on Machine `k` is the action on it alone, put back in its place. -/
theorem System.onMachine_next {sys sys' : System} {k : Nat}
    {act : State → Host.Outcome State Fault Refusal} (h : sys.onMachine k act = .next sys') :
    ∃ s s', sys[k]? = some s ∧ act s = .next s' ∧ sys' = sys.set k s' := by
  unfold System.onMachine at h
  split at h
  · cases h
  next s hk =>
  split at h
  · next s' hs => exact ⟨s, s', hk, hs, (Host.Outcome.next.inj h).symm⟩
  · cases h
  · cases h

/-- Settles O56: putting a state in place `k` changes no other place. -/
theorem machinesAreIndependent : Obligations.MachinesAreIndependent := by
  intro sys sys' k act h
  obtain ⟨s, s', hk, hs, rfl⟩ := System.onMachine_next h
  obtain ⟨hlen, -⟩ := List.getElem?_eq_some_iff.1 hk
  exact ⟨fun j hj => List.getElem?_set_ne hj.symm, List.length_set, s, s', hk, hs,
    List.getElem?_set_self hlen⟩

end Sys2Proof.Machine
end

section
/-! PROOFS. 70_reset_and_hazards.md: `reset` equals construction (R290, R291), and where a run command returns
(R298, with 46_host_interface.md R224 to R227). -/

namespace Sys2Proof.Machine

/-! ## `reset` (R290, R291) -/

/-- Settles O53: between runs `reset` answers the new Machine of the same parameters, which is itself between
runs. -/
theorem resetEqualsConstruction : Obligations.ResetEqualsConstruction := by
  intro s hidle
  have hagain : (State.new s.cfg).issue .reset = .next (State.new s.cfg) := State.issue_reset rfl
  exact ⟨State.new s.cfg, State.issue_reset hidle, rfl, hagain, fun _ => rfl, State.new_pc _,
    State.new_rb _, State.new_halt _, State.new_inQ _, State.new_outSeq _, State.new_inSlot _,
    State.new_outSlot _, State.new_fault _, rfl⟩

/-! ## What a command does after one instruction (R223, R225 to R227) -/

/-- The command that goes on after an instruction: the same, with the latch of `consumeSingleInput` set by an
`IN` (R227). -/
def RunCommand.noteInput (c : RunCommand) (i : Instr) : RunCommand :=
  match c with
  | .eval => .eval
  | .pipe => .pipe
  | .consumeSingleInput consumed => .consumeSingleInput (consumed || decide (i.opcode = .inp))

/-- After an instruction that raised nothing the command goes on, except that `pipe` returns by an `OUT`. -/
theorem State.afterInstr_cases {s : State} (hf : s.faulted = false) (c : RunCommand) (i : Instr) :
    s.afterInstr c i = s.goOn (c.noteInput i) ∨
      (c = .pipe ∧ ∃ a, i = .out a ∧ s.afterInstr c i = s.respond (.output s.lastOutput)) := by
  rw [State.afterInstr_of_not_faulted c i hf]
  cases c with
  | eval => exact .inl rfl
  | pipe =>
    cases i with
    | out a => exact .inr ⟨rfl, a, rfl, rfl⟩
    | _ => exact .inl rfl
  | consumeSingleInput consumed => exact .inl (s.afterOutcome_consumeSingleInput consumed i)

/-- An `OUT` that `pipe` completes leaves its operand in `OUT_SLOT`, where `pipe` looks for its output. -/
theorem exec_out_of_pipe {s s₁ : State} {a : Operand} (hp : s.port = .running .pipe)
    (he : exec (.out a) s = .next s₁) (hf₁ : s₁.faulted = false) :
    s.readOperand a = .ok s₁.outSlot ∧ s₁.lastOutput = s₁.outSlot := by
  rcases exec_next he with hok | ⟨t, -, rfl⟩
  · obtain ⟨-, -, -, hport, -⟩ := phases_frame hok
    obtain ⟨x, hx, rfl⟩ := phases_out_ok hok
    have hstep : s.ioMode = .step := by simp only [State.ioMode, hp, RunCommand.ioMode]
    refine ⟨?_, State.lastOutput_of_pipe (hport.trans hp)⟩
    rw [hx, State.emit_step s x hstep]
    rfl
  · rw [State.raise_faulted] at hf₁
    cases hf₁

/-! ## The step that ends a command, and a step that does not -/

section OneStep

variable {s s' : State} {c : RunCommand} (hp : s.port = .running c) (h : step s = .next s')
include hp h

/-- A step that ends a command does so with the recorded fault, halted, before the second input of
`consumeSingleInput`, or by the `OUT` that `pipe` executes. -/
theorem step_returns {r : Response} (hr : s'.port = .returned r) :
    (r = .fault s'.fault ∧ s'.faulted = true) ∨
    (s'.faulted = false ∧
      ((r = c.haltedResponse ∧ s'.halt = true) ∨
      (c = .consumeSingleInput true ∧ r = .ok ∧ s'.halt = false ∧ s'.inputAtPc = true) ∨
      (c = .pipe ∧ r = .output s'.outSlot ∧
        ∃ a, s.fetchInstr = .ok (.out a) ∧ s.readOperand a = .ok s'.outSlot))) := by
  rcases step_cases h with ⟨hidle, -⟩ | ⟨c', hc', hpass⟩
  · simp [State.isRunning, hp] at hidle
  obtain rfl : c = c' := Port.running.inj (hp.symm.trans hc')
  rcases hpass with ⟨hf, rfl⟩ | ⟨hf, hh, rfl⟩ | ⟨hf, hh, hb, rfl⟩ |
    ⟨-, -, -, ⟨t, -, rfl⟩ | ⟨i, s₁, hi, he, rfl⟩⟩
  · exact .inl ⟨(Port.returned.inj hr).symm, hf⟩
  · exact .inr ⟨hf, .inl ⟨(Port.returned.inj hr).symm, hh⟩⟩
  · obtain ⟨rfl, hin⟩ := (s.stopsBefore_iff c).1 hb
    exact .inr ⟨hf, .inr (.inl ⟨rfl, (Port.returned.inj hr).symm, hh, hin⟩)⟩
  · exact .inl ⟨(Port.returned.inj hr).symm, s.raise_faulted t⟩
  cases hf₁ : s₁.faulted with
  | true =>
    rw [State.afterInstr_of_faulted c i hf₁] at hr ⊢
    exact .inl ⟨(Port.returned.inj hr).symm, hf₁⟩
  | false =>
    rcases State.afterInstr_cases hf₁ c i with hgo | ⟨rfl, a, rfl, hout⟩
    · rw [hgo] at hr
      cases hr
    · obtain ⟨hx, hlast⟩ := exec_out_of_pipe hp he hf₁
      rw [hout, hlast] at hr ⊢
      exact .inr ⟨hf₁, .inr (.inr ⟨rfl, (Port.returned.inj hr).symm, a, hi, hx⟩)⟩

/-- A step after which a command still runs has executed an instruction, and at most the latch has changed. -/
theorem step_keeps_running {c' : RunCommand} (hc' : s'.port = .running c') :
    ∃ i, s.fetchInstr = .ok i ∧ c' = c.noteInput i := by
  rcases step_cases h with ⟨hidle, -⟩ | ⟨c₁, hc₁, hpass⟩
  · simp [State.isRunning, hp] at hidle
  obtain rfl : c = c₁ := Port.running.inj (hp.symm.trans hc₁)
  rcases hpass with ⟨-, rfl⟩ | ⟨-, -, rfl⟩ | ⟨-, -, -, rfl⟩ |
    ⟨-, -, -, ⟨t, -, rfl⟩ | ⟨i, s₁, hi, -, rfl⟩⟩
  · cases hc'
  · cases hc'
  · cases hc'
  · cases hc'
  refine ⟨i, hi, ?_⟩
  cases hf₁ : s₁.faulted with
  | true =>
    rw [State.afterInstr_of_faulted c i hf₁] at hc'
    cases hc'
  | false =>
    rcases State.afterInstr_cases hf₁ c i with hgo | ⟨-, -, -, hout⟩
    · rw [hgo] at hc'
      exact (Port.running.inj hc').symm
    · rw [hout] at hc'
      cases hc'

end OneStep

/-! ## The run up to the step that ends it -/

/-- On the way from `s₀` to `s` a step has executed an `IN` and set the latch of `consumeSingleInput` (R227). -/
def State.LatchSetBetween (s₀ s : State) : Prop :=
  ∃ k m s₁ s₂ c, s₀.stepTimes k = some s₁ ∧ s₁.port = .running (.consumeSingleInput false) ∧
    s₁.fetchInstr = .ok (.inp c) ∧ step s₁ = .next s₂ ∧ s₂.port = .running (.consumeSingleInput true) ∧
    s₂.stepTimes m = some s

theorem State.LatchSetBetween.step {s₀ s s' : State} (h : s₀.LatchSetBetween s) (hs : step s = .next s') :
    s₀.LatchSetBetween s' := by
  obtain ⟨k, m, s₁, s₂, c, hk, hp₁, hi, h₁, hp₂, hm⟩ := h
  exact ⟨k, m + 1, s₁, s₂, c, hk, hp₁, hi, h₁, hp₂, State.stepTimes_succ hm hs⟩

/-- `c` is running at `s`, in the run of `c₀` from `s₀`: it is `c₀` itself after some steps, or
`consumeSingleInput` with the latch that a step on the way has set. -/
def State.RunsOn (s₀ : State) (c₀ : RunCommand) (s : State) (c : RunCommand) : Prop :=
  s.port = .running c ∧
    ((c = c₀ ∧ ∃ k, s₀.stepTimes k = some s) ∨
      (c₀ = .consumeSingleInput false ∧ c = .consumeSingleInput true ∧ s₀.LatchSetBetween s))

theorem Instr.eq_inp_of_opcode {i : Instr} (h : i.opcode = .inp) : ∃ c, i = .inp c := by
  cases i with
  | inp c => exact ⟨c, rfl⟩
  | _ => cases h

/-- An instruction leaves the command as it is, or it is the `IN` that sets the latch. -/
theorem RunCommand.noteInput_cases (c : RunCommand) (i : Instr) :
    c.noteInput i = c ∨
      (c = .consumeSingleInput false ∧ c.noteInput i = .consumeSingleInput true ∧ ∃ o, i = .inp o) := by
  cases c with
  | eval | pipe => exact .inl rfl
  | consumeSingleInput consumed =>
    by_cases hop : i.opcode = .inp
    · cases consumed with
      | true => exact .inl rfl
      | false => exact .inr ⟨rfl, by simp [RunCommand.noteInput, hop], Instr.eq_inp_of_opcode hop⟩
    · exact .inl (by simp [RunCommand.noteInput, hop])

/-- The run goes on by every step after which a command still runs. -/
theorem State.RunsOn.step {s₀ s s' : State} {c₀ c c' : RunCommand} (h : s₀.RunsOn c₀ s c)
    (hs : step s = .next s') (hc' : s'.port = .running c') : s₀.RunsOn c₀ s' c' := by
  obtain ⟨hp, hway⟩ := h
  obtain ⟨i, hi, rfl⟩ := step_keeps_running hp hs hc'
  refine ⟨hc', ?_⟩
  rcases hway with ⟨rfl, k, hk⟩ | ⟨hc₀, rfl, hlatch⟩
  · rcases c.noteInput_cases i with hsame | ⟨rfl, hset, o, rfl⟩
    · exact .inl ⟨hsame, k + 1, State.stepTimes_succ hk hs⟩
    · exact .inr ⟨rfl, hset, k, 0, s, s', o, hk, hp, hi, hs, hset ▸ hc', rfl⟩
  · exact .inr ⟨hc₀, rfl, hlatch.step hs⟩

/-- A run that returns has a last step, from a state where its command still runs. -/
theorem State.RunsOn.last_step {s₀ s' : State} {c₀ : RunCommand} {r : Response} {fuel : Nat} :
    ∀ {s : State} {c : RunCommand}, s₀.RunsOn c₀ s c → s.runToReturn fuel = some (s', r) →
      ∃ t c', s₀.RunsOn c₀ t c' ∧ Machine.step t = .next s' ∧ s'.port = .returned r := by
  induction fuel with
  | zero =>
    intro s c hrun h
    rcases State.runToReturn_cases h with ⟨resp, hp, -⟩ | ⟨n, c', s₁, hn, -⟩
    · cases hp.symm.trans hrun.1
    · cases hn
  | succ n ih =>
    intro s c hrun h
    rcases State.runToReturn_cases h with ⟨resp, hp, -⟩ | ⟨n', c', s₁, hn, -, hs, h'⟩
    · cases hp.symm.trans hrun.1
    cases hn
    rcases State.runToReturn_cases h' with ⟨resp, hp₁, heq⟩ | ⟨-, c₁, -, -, hp₁, -, -⟩
    · cases heq
      exact ⟨s, c, hrun, hs, hp₁⟩
    · exact ih (hrun.step hs hp₁) h'

/-! ## Where a run command returns (R298) -/

/-- A run command that is started with its latch clear returns with the recorded fault, halted, at the second
input of `consumeSingleInput`, or by the `OUT` that `pipe` executes. -/
theorem State.startRun_returns {s s' : State} {c₀ : RunCommand} {stage : State → State} {fuel : Nat}
    {r : Response} (hclear : c₀ ≠ .consumeSingleInput true)
    (h : (s.startRun c₀ stage).runToReturn fuel = some (s', r)) :
    (r = .fault s'.fault ∧ s'.faulted = true) ∨
    (s'.faulted = false ∧
      ((r = c₀.haltedResponse ∧ s'.halt = true) ∨
      (c₀ = .consumeSingleInput false ∧ r = .ok ∧ s'.halt = false ∧ s'.inputAtPc = true ∧
        (s.startRun c₀ stage).LatchSetBetween s') ∨
      (c₀ = .pipe ∧ r = .output s'.outSlot ∧
        ∃ k s₁ a, (s.startRun c₀ stage).stepTimes k = some s₁ ∧ s₁.port = .running .pipe ∧
          s₁.fetchInstr = .ok (.out a) ∧ s₁.readOperand a = .ok s'.outSlot ∧ step s₁ = .next s'))) := by
  cases hf : s.faulted with
  | true =>
    rw [State.startRun_of_faulted hf, State.runToReturn_of_returned rfl] at h
    cases h
    exact .inl ⟨rfl, hf⟩
  | false =>
    have hstart : (s.startRun c₀ stage).RunsOn c₀ (s.startRun c₀ stage) c₀ :=
      ⟨by rw [State.startRun_of_not_faulted hf], .inl ⟨rfl, 0, rfl⟩⟩
    obtain ⟨t, c, ⟨hp, hway⟩, hs, hr⟩ := hstart.last_step h
    rcases step_returns hp hs hr with hfault | ⟨hf', ⟨hresp, hh⟩ | ⟨rfl, hresp, hh, hin⟩ |
      ⟨rfl, hresp, a, hi, hx⟩⟩
    · exact .inl hfault
    · have hsame : c.haltedResponse = c₀.haltedResponse := by
        rcases hway with ⟨rfl, -⟩ | ⟨rfl, rfl, -⟩
        · rfl
        · rfl
      exact .inr ⟨hf', .inl ⟨hresp.trans hsame, hh⟩⟩
    · rcases hway with ⟨hc, -⟩ | ⟨hc₀, -, hlatch⟩
      · exact absurd hc.symm hclear
      · exact .inr ⟨hf', .inr (.inl ⟨hc₀, hresp, hh, hin, hlatch.step hs⟩)⟩
    · rcases hway with ⟨rfl, k, hk⟩ | ⟨-, hc, -⟩
      · exact .inr ⟨hf', .inr (.inr ⟨rfl, hresp, k, t, a, hk, hp, hi, hx, hs⟩)⟩
      · cases hc

/-- A command that is run to its response was issued between runs, and the run is the one from its start. -/
theorem State.runCommand_some {s : State} {c : HostCommand} {fuel : Nat} {r : State × Response}
    (h : s.runCommand fuel c = some r) :
    s.isRunning = false ∧ ∃ s₁, s.issue c = .next s₁ ∧ s₁.runToReturn fuel = some r := by
  unfold State.runCommand at h
  split at h
  · next s₁ hs =>
    refine ⟨Bool.eq_false_iff.2 fun hrun => ?_, s₁, hs, h⟩
    obtain ⟨hbusy, -⟩ := noCommandDuringARun s c .pc hrun
    rw [hbusy] at hs
    cases hs
  · cases h
  · cases h

/-- Settles O48: each command is started with its latch clear, and of the ways a run command returns only its
own are left. -/
theorem runCommandsReturnAtTheirStops : Obligations.RunCommandsReturnAtTheirStops := by
  refine fun fuel s s' r => ⟨fun inputs h => ?_, fun x h => ?_, fun x h => ?_⟩
  all_goals obtain ⟨hidle, s₁, hs, hrun⟩ := State.runCommand_some h
  · obtain rfl := Host.Outcome.next.inj ((State.issue_eval hidle inputs).symm.trans hs)
    rcases State.startRun_returns (by simp) hrun with hfault | ⟨hf, ⟨hr, hh⟩ | ⟨hc, -⟩ | ⟨hc, -⟩⟩
    · exact .inr hfault
    · exact .inl ⟨hr, hh, hf⟩
    · cases hc
    · cases hc
  · obtain rfl := Host.Outcome.next.inj ((State.issue_pipe hidle x).symm.trans hs)
    rcases State.startRun_returns (by simp) hrun with hfault |
      ⟨hf, ⟨hr, hh⟩ | ⟨hc, -⟩ | ⟨-, hr, hout⟩⟩
    · exact .inr (.inr hfault)
    · exact .inr (.inl ⟨hr, hh, hf⟩)
    · cases hc
    · exact .inl ⟨hr, hf, hout⟩
  · obtain rfl := Host.Outcome.next.inj ((State.issue_consumeSingleInput hidle x).symm.trans hs)
    rcases State.startRun_returns (by simp) hrun with hfault |
      ⟨hf, ⟨hr, hh⟩ | ⟨-, hr, hh, hin, hlatch⟩ | ⟨hc, -⟩⟩
    · exact .inr (.inr hfault)
    · exact .inl ⟨hr, hh, hf⟩
    · exact .inr (.inl ⟨hr, hh, hf, hin, hlatch⟩)
    · cases hc

end Sys2Proof.Machine
end
